-- ==== Sys2Proof/Word.lean ====
section
/-! DEFINITION. The word types of the block's ports and registers (00_scope.md R8, 30_encoding.md R70). -/

namespace Sys2Proof

/-- A byte of STORE or of HASH_IN (00_scope.md R8). -/
abbrev Byte := BitVec 8

/-- The command word CMD (30_encoding.md R70). -/
abbrev Word := BitVec 32

/-- ARG and the response data words (30_encoding.md R70). -/
abbrev DWord := BitVec 64

/-- The operand port HASH_IN: IDX_BYTES + 32 = 40 bytes, byte j of the hash output at position j
(30_encoding.md R70, R71). -/
abbrev HashIn := Vector Byte 40

end Sys2Proof
end

