-- ==== Sys2Proof/Config.lean ====
section
/-! DEFINITION. What an implementation fixes, and the values the spec leaves open (00_scope.md R6). -/

namespace Sys2Proof.Config

/-- IDX_BYTES, the length of the hash index field in bytes (00_scope.md R6, decided as 8 in
92_eei_decisions.md D3). -/
def idxBytes : Nat := 8

/-- The highest byte offset of STORE. An open value: 1 <= CAP_BYTES < 2^64 is all the spec says
(00_scope.md R6; 92_eei_decisions.md D4), so the offset is any number below 2^64 - 1 = 18446744073709551615. Log entry 2. -/
opaque lastByte : Fin 18446744073709551615

/-- CAP_BYTES of the block State.reset describes (00_scope.md R6). Log entry 2. -/
def capBytes : DWord := BitVec.ofNat 64 (lastByte.val + 1)

/-- The byte of STORE at an offset that nothing has written since the given reset: unspecified, any
value (10_state.md R26; 70_reset_and_hazards.md R270; 93_implementation_defined.md U7). A free value
of the reset's number and the offset. Log entry 1. -/
opaque unspecifiedByte (epoch offset : Nat) : Byte

/-- Which neighbour LINCOUNT(m, Z) rounds to, asked only where the model's closest enclosure of
m * ln(m/Z) does not settle it (42_estimator.md R175). A free value. Log entry 3. -/
opaque lincountRoundsUp (m z : Nat) : Bool

end Sys2Proof.Config
end

