-- ==== Sys2Proof/Syntax.lean ====
section
/-! DEFINITION. The commands of the block, one constructor per row of spec/opcode_table.json, and the
requests that carry them (30_encoding.md R70 to R76). -/

namespace Sys2Proof

/-- A legal command with the operands it uses (30_encoding.md R75, R76, R79). -/
inductive Instr where
  /-- INIT: requested width RW, bucket exponent BE, target valid TV, hash function valid HV (R73). -/
  | init (rw be : Byte) (tv hv : Bool)
  /-- ADD: the hash bytes of one item (R71). -/
  | add (hash : HashIn)
  /-- COUNT: no operand. -/
  | count
  /-- FREE: no operand. -/
  | free
  /-- RGET: ARG is a register index. -/
  | rget (index : DWord)
  /-- RDBYTE: ARG is a byte offset. -/
  | rdbyte (offset : DWord)
  /-- EXTRACT: the hash bytes of one item. -/
  | extract (hash : HashIn)
  /-- RDCFG: no operand. -/
  | rdcfg
deriving DecidableEq, Repr

/-- One request on the request port: the triple (CMD, ARG, HASH_IN) (30_encoding.md R70). -/
structure Request where
  cmd : Word
  arg : DWord
  hashIn : HashIn
deriving DecidableEq, Repr

/-- One input from the host: a request, or the reset input, which is not a command
(60_exceptions.md R255; 70_reset_and_hazards.md R270). -/
inductive HostInput where
  | request (q : Request)
  | reset
deriving DecidableEq, Repr

/-- Why a command word is illegal (30_encoding.md R77). -/
inductive IllegalWord where
  /-- OP is 0x0 or 0x9 to 0xF. -/
  | reservedOpcode (op : BitVec 4)
  /-- A reserved bit of the format is 1. -/
  | reservedBits (op : BitVec 4)
deriving DecidableEq, Repr

end Sys2Proof
end

