-- ==== Sys2Proof/WellFormed.lean ====
section
/-! DEFINITION. Which command words are legal (30_encoding.md R78), and which instructions are well
formed. -/

namespace Sys2Proof

/-- One row of the table of legal command words (30_encoding.md R78). -/
structure LegalRow where
  mnemonic : String
  pattern : Word
  mask : Word
deriving DecidableEq, Repr

/-- The table of legal command words, as 30_encoding.md R78 gives it. -/
def legalRows : List LegalRow :=
  [⟨"INIT", 0x00000001#32, 0xFFC0000F#32⟩, ⟨"ADD", 0x00000002#32, 0xFFFFFFFF#32⟩,
   ⟨"COUNT", 0x00000003#32, 0xFFFFFFFF#32⟩, ⟨"FREE", 0x00000004#32, 0xFFFFFFFF#32⟩,
   ⟨"RGET", 0x00000005#32, 0xFFFFFFFF#32⟩, ⟨"RDBYTE", 0x00000006#32, 0xFFFFFFFF#32⟩,
   ⟨"EXTRACT", 0x00000007#32, 0xFFFFFFFF#32⟩, ⟨"RDCFG", 0x00000008#32, 0xFFFFFFFF#32⟩]

/-- A word W is the command in a row iff W & mask = match (30_encoding.md R78). -/
def LegalRow.matches (row : LegalRow) (w : Word) : Bool := w &&& row.mask == row.pattern

/-- A command word is legal iff some row of 30_encoding.md R78 matches it. -/
def legalWord (w : Word) : Bool := legalRows.any (·.matches w)

/-- Whether an instruction is one the encoding admits. Every operand has exactly the width of its
field or port by its type (30_encoding.md R70, R73), and INIT takes any field value (R73: "any other
value is encodable"), so every term of Instr is well formed. -/
def Instr.wellFormed : Instr → Bool
  | .init _ _ _ _ => true
  | .add _ => true
  | .count => true
  | .free => true
  | .rget _ => true
  | .rdbyte _ => true
  | .extract _ => true
  | .rdcfg => true

/-- A request is well formed iff its command word is legal: ARG and HASH_IN may hold anything
(30_encoding.md R79; 60_exceptions.md R255). -/
def Request.wellFormed (q : Request) : Bool := legalWord q.cmd

end Sys2Proof
end

