-- ==== Sys2Proof/Decode.lean ====
section
/-! DEFINITION. The decoder, total on any request and rejecting by name, the encoder, and the
assembler's forms (30_encoding.md R72 to R85). -/

namespace Sys2Proof

/-- HASH_IN from a byte for each position. -/
def hashOfFn (f : Nat → Byte) : HashIn := ⟨((List.range 40).map f).toArray, by simp⟩

/-- HASH_IN with every byte 0: what an unused port is sent as (30_encoding.md R83). -/
def hashZero : HashIn := hashOfFn fun _ => 0

/-- OP = CMD[3:0] (30_encoding.md R72). -/
def opField (w : Word) : BitVec 4 := w.extractLsb' 0 4

/-- RW = CMD[11:4] (30_encoding.md R73). -/
def rwField (w : Word) : Byte := w.extractLsb' 4 8

/-- BE = CMD[19:12] (30_encoding.md R73). -/
def beField (w : Word) : Byte := w.extractLsb' 12 8

/-- TV = CMD[20] (30_encoding.md R73). -/
def tvField (w : Word) : Bool := w.getLsbD 20

/-- HV = CMD[21] (30_encoding.md R73). -/
def hvField (w : Word) : Bool := w.getLsbD 21

/-- RSV = CMD[31:22] of format I (30_encoding.md R73). -/
def rsvI (w : Word) : BitVec 10 := w.extractLsb' 22 10

/-- RSV = CMD[31:4] of format N (30_encoding.md R74). -/
def rsvN (w : Word) : BitVec 28 := w.extractLsb' 4 28

/-- A format-N command: its reserved bits must be 0 (30_encoding.md R74, R77). -/
def formatN (w : Word) (i : Instr) : Except IllegalWord Instr :=
  if rsvN w = 0 then .ok i else .error (.reservedBits (opField w))

/-- INIT, the one command of format I (30_encoding.md R73, R77). -/
def formatI (w : Word) : Except IllegalWord Instr :=
  if rsvI w = 0 then .ok (.init (rwField w) (beField w) (tvField w) (hvField w))
  else .error (.reservedBits (opField w))

/-- The decoder: the command is selected from OP alone, then its format's reserved bits are checked
(30_encoding.md R72, R76, R77). Operands come from CMD, ARG or HASH_IN as R75 and R79 say. -/
def decode (q : Request) : Except IllegalWord Instr :=
  match (opField q.cmd).toNat with
  | 1 => formatI q.cmd
  | 2 => formatN q.cmd (.add q.hashIn)
  | 3 => formatN q.cmd .count
  | 4 => formatN q.cmd .free
  | 5 => formatN q.cmd (.rget q.arg)
  | 6 => formatN q.cmd (.rdbyte q.arg)
  | 7 => formatN q.cmd (.extract q.hashIn)
  | 8 => formatN q.cmd .rdcfg
  | _ => .error (.reservedOpcode (opField q.cmd))

/-- The command word of an instruction (30_encoding.md R73, R74, R76). -/
def encodeWord : Instr → Word
  | .init rw be tv hv => 0#10 ++ BitVec.ofBool hv ++ BitVec.ofBool tv ++ be ++ rw ++ 0x1#4
  | .add _ => 0#28 ++ 0x2#4
  | .count => 0#28 ++ 0x3#4
  | .free => 0#28 ++ 0x4#4
  | .rget _ => 0#28 ++ 0x5#4
  | .rdbyte _ => 0#28 ++ 0x6#4
  | .extract _ => 0#28 ++ 0x7#4
  | .rdcfg => 0#28 ++ 0x8#4

/-- The ARG an instruction is sent with; 0 where it uses none (30_encoding.md R79, R83). -/
def encodeArg : Instr → DWord
  | .rget index => index
  | .rdbyte offset => offset
  | .init _ _ _ _ => 0
  | .add _ => 0
  | .count => 0
  | .free => 0
  | .extract _ => 0
  | .rdcfg => 0

/-- The HASH_IN an instruction is sent with; zeros where it uses none (30_encoding.md R79, R83). -/
def encodeHash : Instr → HashIn
  | .add hash => hash
  | .extract hash => hash
  | .init _ _ _ _ => hashZero
  | .count => hashZero
  | .free => hashZero
  | .rget _ => hashZero
  | .rdbyte _ => hashZero
  | .rdcfg => hashZero

/-- The encoder: the request that carries an instruction (30_encoding.md R70, R83). -/
def encode (i : Instr) : Request := ⟨encodeWord i, encodeArg i, encodeHash i⟩

/-- A request whose bits are w, bit 0 the least significant bit of CMD, ARG following CMD and the
bytes of HASH_IN, byte 0 first, following ARG; every bit from nbits on is 0. Log entry 10. -/
def requestOfBits (nbits w : Nat) : Request :=
  let v := w % 2 ^ nbits
  ⟨BitVec.ofNat 32 v, BitVec.ofNat 64 (v >>> 32), hashOfFn fun j => BitVec.ofNat 8 (v >>> (96 + 8 * j))⟩

/-- The instruction the decoder reads from a request whose bits are w, numbered as
spec/opcode_table.json numbers them. -/
def decodeTableWord (nbits w : Nat) : Option Instr :=
  match decode (requestOfBits nbits w) with
  | .ok i => some i
  | .error _ => none

/-- RL(r), the length of the rank field in bytes, by the width field's number (00_scope.md R6). -/
def rankFieldBytes (r : Nat) : Nat :=
  match r with
  | 4 => 2
  | 6 => 8
  | 8 => 32
  | _ => 0

/-- HASH_IN as the assembler writes `idx, h'…'`: bytes 0 to 7 are idx little-endian, bytes 8 on are the
given bytes in order, bytes not given are 0 (30_encoding.md R83). -/
def Asm.hash (idx : DWord) (bytes : List Byte) : HashIn :=
  hashOfFn fun j => if j < 8 then idx.extractLsb' (8 * j) 8 else bytes.getD (j - 8) 0

/-- The rank bytes of `ADDK idx, k` and `EXTRACTK idx, k` at width r: the little-endian encoding of
2^(k-1) if k < 8*RL(r), all zero if k = 8*RL(r) (30_encoding.md R84). -/
def Asm.rankBytes (r k : Nat) : List Byte :=
  (List.range (rankFieldBytes r)).map fun j =>
    if k < 8 * rankFieldBytes r then BitVec.ofNat 8 ((2 ^ (k - 1)) >>> (8 * j)) else 0

/-- `INIT r, b`, short for `INIT r, b, 1, 1` (30_encoding.md R84). -/
def Asm.init (r b : Byte) : Instr := .init r b true true

/-- `ADDK idx, k` at width r (30_encoding.md R84). -/
def Asm.addK (r : Nat) (idx : DWord) (k : Nat) : Instr := .add (Asm.hash idx (Asm.rankBytes r k))

/-- `EXTRACTK idx, k` at width r (30_encoding.md R84). -/
def Asm.extractK (r : Nat) (idx : DWord) (k : Nat) : Instr :=
  .extract (Asm.hash idx (Asm.rankBytes r k))

/-- `.word 0xXXXXXXXX`: any command word, ARG 0 and HASH_IN all 0 (30_encoding.md R83). -/
def Asm.word (w : Word) : Request := ⟨w, 0, hashZero⟩

end Sys2Proof
end

