-- ==== Sys2Proof/Machine/State.lean ====
section
/-! DEFINITION. The state of the block, the reasons a step can stop, and the state after reset
(10_state.md; 70_reset_and_hazards.md R270). -/

namespace Sys2Proof.Machine

/-- STATE, the lifecycle register: 0 UNINIT, 1 ACTIVE, 2 FREED. The value 3 is never held, so it has
no constructor (10_state.md R20). Log entry 8. -/
inductive Lifecycle where
  | uninit
  | active
  | freed
deriving DecidableEq, Repr

/-- FAULT_CAUSE: 0 none and the four contract violations. The values 5 to 15 are never held, so they
have no constructor (10_state.md R25; 60_exceptions.md R243). Log entry 8. -/
inductive FaultCause where
  | none
  | indexOutOfRange
  | byteOffsetOutOfRange
  | useAfterFree
  | doubleFree
deriving DecidableEq, Repr

/-- The status codes a response can carry (60_exceptions.md R240). -/
inductive Status where
  | ok
  | nullTarget
  | invalidRegisterWidth
  | invalidBucketExponent
  | nullHashFunction
  | allocationFailure
  | illegalCommand
  | fault
  | notInitialized
deriving DecidableEq, Repr

/-- The register width r, the block's one option: 4, 6 or 8 bits (00_scope.md R2). -/
inductive Width where
  | w4
  | w6
  | w8
deriving DecidableEq, Repr

/-- The configuration every command in ACTIVE reads: r = CFG_R and b = CFG_B (10_state.md R23). -/
structure ActiveConfig where
  width : Width
  exponent : Nat
deriving DecidableEq, Repr

/-- Everything the spec gives the block, with CAP_BYTES and the host's inputs. -/
structure State where
  /-- STATE (10_state.md R20). -/
  life : Lifecycle
  /-- CFG_R (10_state.md R21). -/
  cfgR : Byte
  /-- CFG_B (10_state.md R22). -/
  cfgB : Byte
  /-- FAULT (10_state.md R24). -/
  fault : Bool
  /-- FAULT_CAUSE (10_state.md R25). -/
  faultCause : FaultCause
  /-- STORE: the bytes written since the last reset, addresses rising (10_state.md R26). -/
  store : List Host.Cell
  /-- RSP_STATUS (10_state.md R27). -/
  rspStatus : Byte
  /-- RSP_DATA0 (10_state.md R27). -/
  rspData0 : DWord
  /-- RSP_DATA1 (10_state.md R27). -/
  rspData1 : DWord
  /-- CAP_BYTES, the open parameter; no step writes it (00_scope.md R6). -/
  capBytes : DWord
  /-- The model's own: how many resets were taken, which the unspecified bytes of STORE are drawn at
  (70_reset_and_hazards.md R270). Log entry 1. -/
  storeEpoch : Nat
  /-- The host's sequence of inputs (10_state.md R30; 60_exceptions.md R255). -/
  script : List HostInput
  /-- The host's position in it (10_state.md R30). -/
  pos : Nat
deriving DecidableEq, Repr

/-- Why a run is reported as a fault outcome. -/
inductive Fault where
  /-- The run ended with FAULT = 1 (60_exceptions.md R246, R257). Raised by `Safety.runOutcome` alone; a
  step takes the fault entry and goes on. Safe: the run has no normal end. Log entry 6. -/
  | contractViolation (cause : FaultCause)
deriving DecidableEq, Repr

/-- Why the model gives a request no meaning. -/
inductive Refusal where
  /-- The instruction has no meaning yet. Raised by exec's arms alone. Safe. -/
  | notModelled (mnemonic : String)
  /-- ADD, COUNT, RGET, RDBYTE or EXTRACT in ACTIVE with a configuration 10_state.md R23 says is never
  held there. Raised by `withConfig`. The case cannot arise from reset (93_implementation_defined.md,
  treatment `refuse`). Safe. Log entry 5. -/
  | configurationNeverHeld
deriving DecidableEq, Repr

/-- The state after reset of a block with the given CAP_BYTES (70_reset_and_hazards.md R270). -/
def State.resetWith (capBytes : DWord) : State :=
  { life := .uninit
    cfgR := 0
    cfgB := 0
    fault := false
    faultCause := .none
    store := []
    rspStatus := 0
    rspData0 := 0
    rspData1 := 0
    capBytes := capBytes
    storeEpoch := 0
    script := []
    pos := 0 }

/-- The machine right after reset (70_reset_and_hazards.md R270, R271). -/
def State.reset : State := State.resetWith Config.capBytes

end Sys2Proof.Machine
end

