-- ==== Sys2Proof/Machine/Flags.lean ====
section
/-! DEFINITION. The block has no flags or condition codes (10_state.md R31). This file holds the numbers
its status registers show. -/

namespace Sys2Proof.Machine

/-- The 2-bit value of STATE (10_state.md R20). -/
def Lifecycle.code : Lifecycle → BitVec 2
  | .uninit => 0
  | .active => 1
  | .freed => 2

/-- The 4-bit value of FAULT_CAUSE (10_state.md R25). -/
def FaultCause.code : FaultCause → BitVec 4
  | .none => 0
  | .indexOutOfRange => 1
  | .byteOffsetOutOfRange => 2
  | .useAfterFree => 3
  | .doubleFree => 4

/-- The 8-bit value of RSP_STATUS (60_exceptions.md R240). -/
def Status.code : Status → Byte
  | .ok => 0
  | .nullTarget => 1
  | .invalidRegisterWidth => 2
  | .invalidBucketExponent => 3
  | .nullHashFunction => 4
  | .allocationFailure => 5
  | .illegalCommand => 6
  | .fault => 7
  | .notInitialized => 8

/-- The NaN sentinel of COUNT in UNINIT (30_encoding.md R81; 92_eei_decisions.md D21). -/
def nanSentinel : DWord := 0x7FF8000000000000

end Sys2Proof.Machine
end

