-- ==== Sys2Proof/Machine/Operands.lean ====
section
/-! DEFINITION. The operand forms: little-endian integers, the fields of the hash bytes, and the
parameters of a configuration (00_scope.md R6, R7, R9; 41_rank_extractor.md R140 to R142). -/

namespace Sys2Proof.Machine

/-- The little-endian integer of a byte sequence, byte 0 least significant (00_scope.md R9). -/
def leNat : List Byte → Nat
  | [] => 0
  | b :: bs => b.toNat + 2 ^ 8 * leNat bs

/-- LE(B, off, n) of HASH_IN (00_scope.md R9). -/
def hashLE (h : HashIn) (off n : Nat) : Nat := leNat ((h.toList.drop off).take n)

/-- The register width r in bits (00_scope.md R6). -/
def Width.bits : Width → Nat
  | .w4 => 4
  | .w6 => 6
  | .w8 => 8

/-- The legal widths, read from an 8-bit field (43_counter_control.md R201). -/
def Width.ofField (rw : Byte) : Option Width :=
  if rw = 4 then some .w4 else if rw = 6 then some .w6 else if rw = 8 then some .w8 else none

/-- BMIN(r) (00_scope.md R6; 43_counter_control.md R201). -/
def Width.bMin : Width → Nat
  | .w4 => 1
  | .w6 => 2
  | .w8 => 0

/-- RL(r), the bytes of the rank field (00_scope.md R6; 41_rank_extractor.md R140). -/
def Width.rankBytes : Width → Nat
  | .w4 => 2
  | .w6 => 8
  | .w8 => 32

/-- cap(r) = 2^r - 1 (00_scope.md R7). -/
def Width.cap (w : Width) : Nat := 2 ^ w.bits - 1

/-- L(r, b), the length of the byte image (20_memory.md R50). -/
def Width.imageLen (w : Width) (b : Nat) : Nat :=
  match w with
  | .w4 => 2 ^ b / 2
  | .w6 => 3 * (2 ^ b / 4) + 1
  | .w8 => 2 ^ b

/-- m = 2^b, the number of registers (00_scope.md R7). -/
def ActiveConfig.regCount (c : ActiveConfig) : Nat := 2 ^ c.exponent

/-- L(r, b) of a configuration (20_memory.md R50). -/
def ActiveConfig.imageLen (c : ActiveConfig) : Nat := c.width.imageLen c.exponent

/-- HL(r) = IDX_BYTES + RL(r), the hash bytes a command reads (00_scope.md R7). -/
def Width.hashLen (w : Width) : Nat := Config.idxBytes + w.rankBytes

/-- The configuration a state holds, if it is one 10_state.md R23 allows while ACTIVE. -/
def State.config? (s : State) : Option ActiveConfig :=
  match Width.ofField s.cfgR with
  | none => none
  | some w =>
    if w.bMin ≤ s.cfgB.toNat ∧ s.cfgB.toNat < 8 * Config.idxBytes ∧
        w.imageLen s.cfgB.toNat ≤ s.capBytes.toNat
    then some ⟨w, s.cfgB.toNat⟩ else none

/-- The index field of the hash bytes as an integer (41_rank_extractor.md R140, R141). -/
def indexField (h : HashIn) : Nat := hashLE h 0 Config.idxBytes

/-- The rank field of the hash bytes as an integer, G(H) (41_rank_extractor.md R142). -/
def rankField (w : Width) (h : HashIn) : Nat := hashLE h Config.idxBytes w.rankBytes

end Sys2Proof.Machine
end

