-- ==== Sys2Proof/Machine/Ops.lean ====
section
/-! DEFINITION. The named operations over STORE and the registers, taking a fault, taking reset, and the
dispatch order every command shares (00_scope.md R10; 30_encoding.md R80, R81; 60_exceptions.md R245, R246;
70_reset_and_hazards.md R270). -/

namespace Sys2Proof.Machine

/-- What a command or a step answers. -/
abbrev Answer := Host.Outcome State Fault Refusal

/-- The canonical form of STORE: addresses strictly rising. An unlisted byte holds no value, so no
entry can equal what an unlisted address holds. -/
def Store.wf : List Host.Cell → Bool
  | [] => true
  | [_] => true
  | x :: y :: rest => decide (x.1 < y.1) && Store.wf (y :: rest)

/-- The byte listed at an offset; none where nothing has been written since reset (10_state.md R26). -/
def Store.read? : List Host.Cell → Nat → Option Byte
  | [], _ => none
  | x :: rest, a => if x.1 = a then some x.2 else Store.read? rest a

/-- STORE with one byte written, addresses kept rising (00_scope.md R10). -/
def Store.write : List Host.Cell → Nat → Byte → List Host.Cell
  | [], a, v => [(a, v)]
  | x :: rest, a, v =>
    if x.1 < a then x :: Store.write rest a v
    else if x.1 = a then (a, v) :: rest
    else (a, v) :: x :: rest

/-- STORE with 0 written into every byte below n and every other byte kept (43_counter_control.md
R202). -/
def Store.zeroFill (n : Nat) (st : List Host.Cell) : List Host.Cell :=
  (List.range n).map (fun a => (a, 0)) ++ st.filter (fun x => decide (n ≤ x.1))

/-- STORE[a]: the byte listed, or the unspecified byte where nothing has been written since reset
(10_state.md R26; 70_reset_and_hazards.md R270). Log entry 1. -/
def State.loadByte (s : State) (a : Nat) : Byte :=
  (Store.read? s.store a).getD (Config.unspecifiedByte s.storeEpoch a)

/-- STORE[a] <- v (00_scope.md R10). -/
def State.storeByte (s : State) (a : Nat) (v : Byte) : State :=
  { s with store := Store.write s.store a v }

/-- MemRead(a, 4): the 4-byte little-endian view (00_scope.md R10; 40_register_file.md R103). -/
def State.loadView (s : State) (a : Nat) : Word :=
  s.loadByte (a + 3) ++ s.loadByte (a + 2) ++ s.loadByte (a + 1) ++ s.loadByte a

/-- MemWrite(a, 4, V) (00_scope.md R10). -/
def State.storeView (s : State) (a : Nat) (v : Word) : State :=
  (((s.storeByte a (v.extractLsb' 0 8)).storeByte (a + 1) (v.extractLsb' 8 8)).storeByte (a + 2)
    (v.extractLsb' 16 8)).storeByte (a + 3) (v.extractLsb' 24 8)

/-- respond(status, d0, d1): a command's end, all three response registers written (00_scope.md R10;
10_state.md R27). -/
def State.respond (s : State) (st : Status) (d0 d1 : DWord) : State :=
  { s with rspStatus := st.code, rspData0 := d0, rspData1 := d1 }

/-- raise Fault(c), the fault entry: FAULT, FAULT_CAUSE and the response, nothing else
(60_exceptions.md R246). -/
def State.raiseFault (s : State) (c : FaultCause) : State :=
  { s with fault := true, faultCause := c }.respond .fault (c.code.setWidth 64) 0

/-- What a state with FAULT = 1 answers every request with (60_exceptions.md R245). -/
def State.respondFaulted (s : State) : State :=
  s.respond .fault (s.faultCause.code.setWidth 64) 0

/-- The first check of every request: an existing fault masks everything (30_encoding.md R80;
60_exceptions.md R245). -/
def unlessFaulted (s : State) (rest : Answer) : Answer :=
  if s.fault then .next s.respondFaulted else rest

/-- The lifecycle gate: what the command answers in UNINIT, what it runs in ACTIVE, and the fault it
raises in FREED (30_encoding.md R81). -/
def lifecycleGate (s : State) (inUninit inActive : Answer) (inFreed : FaultCause) : Answer :=
  match s.life with
  | .uninit => inUninit
  | .active => inActive
  | .freed => .next (s.raiseFault inFreed)

/-- Runs a command's own rule at the active configuration (10_state.md R23). Log entry 5. -/
def withConfig (s : State) (run : ActiveConfig → Answer) : Answer :=
  match s.config? with
  | some c => run c
  | none => .refused .configurationNeverHeld

/-- An illegal command word: status 6 and nothing else (30_encoding.md R77, R80). -/
def answerIllegal (s : State) : Answer := unlessFaulted s (.next (s.respond .illegalCommand 0 0))

/-- The reset input: every element at the value of 70_reset_and_hazards.md R270, STORE unspecified
anew. CAP_BYTES and the host's sequence are not the block's to reset. Log entries 1 and 4. -/
def State.takeReset (s : State) : State :=
  { life := .uninit
    cfgR := 0
    cfgB := 0
    fault := false
    faultCause := .none
    store := []
    rspStatus := 0
    rspData0 := 0
    rspData1 := 0
    capBytes := s.capBytes
    storeEpoch := s.storeEpoch + 1
    script := s.script
    pos := s.pos }

/-- The host's position moves on by exactly one (10_state.md R30). -/
def State.advance (s : State) : State := { s with pos := s.pos + 1 }

/-- The host's next input, if it has one (10_state.md R30). -/
def State.nextInput? (s : State) : Option HostInput := s.script[s.pos]?

/-- A next state with the host's position moved on; a refusal as it is. -/
def advanceAnswer : Answer → Answer
  | .next s => .next s.advance
  | .fault f => .fault f
  | .refused r => .refused r

end Sys2Proof.Machine
end

