-- ==== Sys2Proof/Machine/Binary64.lean ====
section
/-! DEFINITION. Exact non-negative rationals and their rounding to IEEE 754 binary64 (00_scope.md R11;
42_estimator.md R180). PRESUMED: log entry 7. -/

namespace Sys2Proof.Machine

/-- An exact non-negative rational num/den of Q (00_scope.md R11); den is positive in every use. -/
structure Frac where
  num : Nat
  den : Nat
deriving DecidableEq, Repr

/-- The sum of two rationals. -/
def Frac.add (x y : Frac) : Frac := ⟨x.num * y.den + y.num * x.den, x.den * y.den⟩

/-- A natural multiple of a rational. -/
def Frac.scale (n : Nat) (x : Frac) : Frac := ⟨n * x.num, x.den⟩

/-- num/den to the nearest integer, ties to even (00_scope.md R11). -/
def roundHalfEven (num den : Nat) : Nat :=
  let q := num / den
  let r := num % den
  if 2 * r < den then q else if den < 2 * r then q + 1 else q + q % 2

/-- The least normal binary64 number is 2^-minExp = 2^-1022; the least number is 2^-(minExp + 52)
(42_estimator.md R180). -/
@[irreducible] def minExp : Nat := 1022

/-- The binade of x: biased exponent minus 1 of a normal number, 0 for a subnormal one. 2^minExp * x has
that many bits below its top bit (00_scope.md R11). -/
def binade (x : Frac) : Nat := Nat.log2 (x.num * 2 ^ minExp / x.den)

/-- The significand x rounds to, in units of the last place of x's binade (00_scope.md R11). -/
def significand (x : Frac) : Nat := roundHalfEven (x.num * 2 ^ (minExp + 52)) (x.den * 2 ^ binade x)

/-- bits64(RNE64(x)) as a number: a rounding carry moves into the exponent field, and an overflow gives
infinity (00_scope.md R11; 42_estimator.md R180). -/
def roundBits (x : Frac) : Nat := min (binade x * 2 ^ 52 + significand x) (2047 * 2 ^ 52)

/-- bits64(RNE64(x)) (00_scope.md R11; 42_estimator.md R180). -/
def rne64 (x : Frac) : DWord := BitVec.ofNat 64 (roundBits x)

/-- The value of a finite non-negative binary64 encoding, times 2^(minExp + 52) = 2^1074, an integer
(42_estimator.md R180). -/
def binary64Scaled (bits : Nat) : Nat :=
  let e := bits / 2 ^ 52
  let f := bits % 2 ^ 52
  if e = 0 then f else (2 ^ 52 + f) * 2 ^ (e - 1)

/-- Whether an encoding is a finite non-negative number: sign 0 and exponent field below 2047
(42_estimator.md R180). -/
def finiteNonneg (bits : DWord) : Bool := decide (bits.toNat < 2047 * 2 ^ 52)

/-- Whether an encoding is a NaN: exponent field 2047 and a fraction that is not 0 (42_estimator.md
R180). -/
def isNaN (bits : DWord) : Bool :=
  decide (bits.extractLsb' 52 11 = 2047) && decide (bits.extractLsb' 0 52 ≠ 0)

end Sys2Proof.Machine
end

