-- ==== Sys2Proof/Machine/LinCount.lean ====
section
/-! DEFINITION. LINCOUNT(m, Z) = RNE64(m * ln(m/Z)), by enclosing the logarithm between two rationals
until both round to one number (42_estimator.md R175). Log entry 3. -/

namespace Sys2Proof.Machine

/-- The sum over j < n of (p/q)^(2j) / (2(i+j)+1), in Horner's form. -/
def atanhTail (p q : Nat) : (i n : Nat) → Frac
  | _, 0 => ⟨0, 1⟩
  | i, n + 1 =>
    let r := atanhTail p q (i + 1) n
    ⟨q ^ 2 * r.den + (2 * i + 1) * (p ^ 2 * r.num), (2 * i + 1) * (q ^ 2 * r.den)⟩

/-- A lower bound of atanh(p/q) = ln((q+p)/(q-p)) / 2: the first n terms of its series. -/
def atanhLower (p q n : Nat) : Frac :=
  let r := atanhTail p q 0 n
  ⟨p * r.num, q * r.den⟩

/-- An upper bound of atanh(p/q): the first n terms and a bound of the rest. -/
def atanhUpper (p q n : Nat) : Frac :=
  (atanhLower p q n).add ⟨p ^ (2 * n + 1) * q ^ 2, q ^ (2 * n + 1) * (q ^ 2 - p ^ 2)⟩

/-- The largest k with 2^k * z <= m. -/
def lnShift (m z : Nat) : Nat := Nat.log2 (m / z)

/-- m * ln(m/z) from bounds of ln 2 / 2 = atanh(1/3) and of the rest
ln(m / (2^k z)) / 2 = atanh((m - 2^k z) / (m + 2^k z)). -/
def lnCombine (m z : Nat) (half2 rest : Frac) : Frac :=
  ((half2.scale (lnShift m z)).add rest).scale (2 * m)

/-- A lower bound of m * ln(m/z), from n terms of each series. -/
def lincountLower (m z n : Nat) : Frac :=
  let zk := 2 ^ lnShift m z * z
  lnCombine m z (atanhLower 1 3 n) (atanhLower (m - zk) (m + zk) n)

/-- An upper bound of m * ln(m/z), from n terms of each series. -/
def lincountUpper (m z n : Nat) : Frac :=
  let zk := 2 ^ lnShift m z * z
  lnCombine m z (atanhUpper 1 3 n) (atanhUpper (m - zk) (m + zk) n)

/-- Doubles the terms until both bounds round to one number; where that does not happen in the tries
left, the open value picks one of the two (42_estimator.md R175). -/
def lincountSearch (m z : Nat) : (tries n : Nat) → DWord
  | 0, n =>
    if Config.lincountRoundsUp m z then rne64 (lincountUpper m z n) else rne64 (lincountLower m z n)
  | tries + 1, n =>
    if rne64 (lincountLower m z n) = rne64 (lincountUpper m z n) then rne64 (lincountLower m z n)
    else lincountSearch m z tries (2 * n)

/-- LINCOUNT(m, Z): +0.0 at Z = m, else the rounding of m * ln(m/Z) (42_estimator.md R175). -/
def lincount (m z : Nat) : DWord := if z = m then 0 else lincountSearch m z 5 24

end Sys2Proof.Machine
end

