-- ==== Sys2Proof/Machine/RegisterFile.lean ====
section
/-! DEFINITION. The bit-packed register file and its inspection commands RGET and RDBYTE
(40_register_file.md R100 to R121). -/

namespace Sys2Proof.Machine

/-- Where the register's first byte lies: i/2, 3*(i/4) or i (40_register_file.md R101 to R103). -/
def Width.byteIndex (w : Width) (i : Nat) : Nat :=
  match w with
  | .w4 => i / 2
  | .w6 => 3 * (i / 4)
  | .w8 => i

/-- The bit offset of the register in its byte or view (40_register_file.md R101 to R103). -/
def Width.shift (w : Width) (i : Nat) : Nat :=
  match w with
  | .w4 => 4 * (i % 2)
  | .w6 => 6 * (i % 4)
  | .w8 => 0

/-- How many bytes a register access touches (20_memory.md R57). -/
def Width.accessBytes : Width → Nat
  | .w4 => 1
  | .w6 => 4
  | .w8 => 1

/-- Bit n of STORE, eight bits a byte, low bits first. Register i of an image is its bits r*i to
r*i + r - 1 (40_register_file.md R101 to R103). -/
def State.storeBit (s : State) (n : Nat) : Bool := (s.loadByte (n / 8)).getLsbD (n % 8)

/-- get(i), the register read (40_register_file.md R104). -/
def State.getReg (s : State) (w : Width) (i : Nat) : Byte :=
  match w with
  | .w4 => (s.loadByte (w.byteIndex i) >>> w.shift i) &&& 0xF#8
  | .w6 => ((s.loadView (w.byteIndex i) >>> w.shift i) &&& 0x3F#32).setWidth 8
  | .w8 => s.loadByte (w.byteIndex i)

/-- set(i, v), the unconditional register write (40_register_file.md R108). -/
def State.setReg (s : State) (w : Width) (i : Nat) (v : Byte) : State :=
  match w with
  | .w4 =>
    let a := w.byteIndex i
    s.storeByte a ((s.loadByte a &&& ~~~(0xF#8 <<< w.shift i)) ||| (v <<< w.shift i))
  | .w6 =>
    let k := w.byteIndex i
    s.storeView k ((s.loadView k &&& ~~~(0x3F#32 <<< w.shift i)) ||| (v.setWidth 32 <<< w.shift i))
  | .w8 => s.storeByte (w.byteIndex i) v

/-- RGET in ACTIVE (40_register_file.md R120). -/
def rgetActive (index : DWord) (s : State) (c : ActiveConfig) : Answer :=
  if c.regCount ≤ index.toNat then .next (s.raiseFault .indexOutOfRange)
  else .next (s.respond .ok ((s.getReg c.width index.toNat).setWidth 64) 0)

/-- RGET: read one register (40_register_file.md R120; gate 30_encoding.md R81). -/
def execRget (index : DWord) (s : State) : Answer :=
  unlessFaulted s <|
    lifecycleGate s (.next (s.respond .notInitialized 0 0)) (withConfig s (rgetActive index s))
      .useAfterFree

/-- RDBYTE in ACTIVE (40_register_file.md R121). -/
def rdbyteActive (offset : DWord) (s : State) (c : ActiveConfig) : Answer :=
  if c.imageLen ≤ offset.toNat then .next (s.raiseFault .byteOffsetOutOfRange)
  else .next (s.respond .ok ((s.loadByte offset.toNat).setWidth 64) 0)

/-- RDBYTE: read one byte of the byte image (40_register_file.md R121; gate 30_encoding.md R81). -/
def execRdbyte (offset : DWord) (s : State) : Answer :=
  unlessFaulted s <|
    lifecycleGate s (.next (s.respond .notInitialized 0 0)) (withConfig s (rdbyteActive offset s))
      .useAfterFree

end Sys2Proof.Machine
end

