-- ==== Sys2Proof/Machine/RankExtractor.lean ====
section
/-! DEFINITION. The rank extractor: bucket index, zero-run rank, saturation, and the command EXTRACT
(41_rank_extractor.md R140 to R150). -/

namespace Sys2Proof.Machine

/-- ctz(x), the trailing zero bits of x, looking at no more than `bits` bits (00_scope.md R9). For
0 < x < 2^bits it is the largest k with x % 2^k = 0. -/
def ctz (bits x : Nat) : Nat :=
  match bits with
  | 0 => 0
  | n + 1 => if x % 2 = 1 then 0 else 1 + ctz n (x / 2)

/-- bucket(H), the index field's low b bits (41_rank_extractor.md R141). -/
def bucket (c : ActiveConfig) (h : HashIn) : Nat := indexField h &&& (2 ^ c.exponent - 1)

/-- N = 8 * RL(r), the bits of the rank field (41_rank_extractor.md R143). -/
def Width.rankBits (w : Width) : Nat := 8 * w.rankBytes

/-- Gg(H), the rank field with the guard bit in its top position (41_rank_extractor.md R143). -/
def guarded (w : Width) (h : HashIn) : Nat := rankField w h ||| 2 ^ (w.rankBits - 1)

/-- rank(H) = 1 + ctz(Gg(H)) (41_rank_extractor.md R143). -/
def rank (w : Width) (h : HashIn) : Nat := 1 + ctz w.rankBits (guarded w h)

/-- sat(k) = min(k, cap(r)) (41_rank_extractor.md R146). -/
def saturate (w : Width) (k : Nat) : Nat := min k w.cap

/-- Word j of the 32-byte rank field, W_j (41_rank_extractor.md R144). -/
def rankWord (h : HashIn) (j : Nat) : Nat := hashLE h (Config.idxBytes + 8 * j) 8

/-- The width-8 word scan: 64 for each all-zero word from the least significant word upward, the guard
in the top bit of word 3 (41_rank_extractor.md R144). The other form of `rank .w8`. -/
def wordScanRank (h : HashIn) : Nat :=
  if rankWord h 0 ≠ 0 then 1 + ctz 64 (rankWord h 0)
  else if rankWord h 1 ≠ 0 then 1 + 64 + ctz 64 (rankWord h 1)
  else if rankWord h 2 ≠ 0 then 1 + 128 + ctz 64 (rankWord h 2)
  else 1 + 192 + ctz 64 (rankWord h 3 ||| 2 ^ 63)

/-- RSP_DATA1 of EXTRACT: bits 15:0 the rank, bits 31:16 the saturated rank (41_rank_extractor.md
R150). -/
def rankWords (w : Width) (k : Nat) : DWord :=
  (BitVec.ofNat 16 (saturate w k) ++ BitVec.ofNat 16 k).setWidth 64

/-- EXTRACT in ACTIVE (41_rank_extractor.md R150). -/
def extractActive (hash : HashIn) (s : State) (c : ActiveConfig) : Answer :=
  .next (s.respond .ok (BitVec.ofNat 64 (bucket c hash)) (rankWords c.width (rank c.width hash)))

/-- EXTRACT: run the rank extractor alone (41_rank_extractor.md R150; gate 30_encoding.md R81). -/
def execExtract (hash : HashIn) (s : State) : Answer :=
  unlessFaulted s <|
    lifecycleGate s (.next (s.respond .notInitialized 0 0)) (withConfig s (extractActive hash s))
      .useAfterFree

end Sys2Proof.Machine
end

