-- ==== Sys2Proof/Machine/Estimator.lean ====
section
/-! DEFINITION. The bias-corrected cardinality estimator and the command COUNT (42_estimator.md R170 to
R184). -/

namespace Sys2Proof.Machine

/-- 2^cap * S over the first n registers, S the sum of 2^(-v): exact, as every v <= cap
(42_estimator.md R170). -/
def scaledSum (get : Nat → Byte) (cap : Nat) : Nat → Nat
  | 0 => 0
  | n + 1 => scaledSum get cap n + 2 ^ (cap - (get n).toNat)

/-- Z over the first n registers: how many are 0 (42_estimator.md R170). -/
def emptyCount (get : Nat → Byte) : Nat → Nat
  | 0 => 0
  | n + 1 => emptyCount get n + (if get n = 0 then 1 else 0)

/-- alpha(b), each decimal literal the exact rational it spells (42_estimator.md R172). -/
def alpha (b : Nat) : Frac :=
  if b ≤ 4 then ⟨673, 1000⟩
  else if b = 5 then ⟨697, 1000⟩
  else if b = 6 then ⟨709, 1000⟩
  else ⟨7213 * 2 ^ b, 10000 * 2 ^ b + 10790⟩

/-- E = alpha(b) * m^2 / S, from 2^cap * S (42_estimator.md R173). -/
def rawEstimate (b cap scaled : Nat) : Frac :=
  ⟨(alpha b).num * (2 ^ b) ^ 2 * 2 ^ cap, (alpha b).den * scaled⟩

/-- Whether E <= (5/2) * m: the small-range correction applies (42_estimator.md R176). -/
def smallRange (b : Nat) (e : Frac) : Bool := decide (2 * e.num ≤ 5 * 2 ^ b * e.den)

/-- bits64(est) from E and Z (42_estimator.md R177, R180). -/
def estimateBits (b : Nat) (e : Frac) (z : Nat) : DWord :=
  if smallRange b e then (if 0 < z then lincount (2 ^ b) z else 0) else rne64 e

/-- E of a state's registers (42_estimator.md R170, R173). -/
def State.rawEstimate (s : State) (c : ActiveConfig) : Frac :=
  Sys2Proof.Machine.rawEstimate c.exponent c.width.cap
    (scaledSum (s.getReg c.width) c.width.cap c.regCount)

/-- Z of a state's registers (42_estimator.md R170). -/
def State.emptyRegs (s : State) (c : ActiveConfig) : Nat := emptyCount (s.getReg c.width) c.regCount

/-- COUNT in ACTIVE (42_estimator.md R184). -/
def countActive (s : State) (c : ActiveConfig) : Answer :=
  .next (s.respond .ok (estimateBits c.exponent (s.rawEstimate c) (s.emptyRegs c)) 0)

/-- COUNT: compute the cardinality estimate (42_estimator.md R184; gate 30_encoding.md R81). -/
def execCount (s : State) : Answer :=
  unlessFaulted s <|
    lifecycleGate s (.next (s.respond .ok nanSentinel 0)) (withConfig s (countActive s)) .useAfterFree

end Sys2Proof.Machine
end

