-- ==== Sys2Proof/Machine/Control.lean ====
section
/-! DEFINITION. The counter control: INIT, ADD, FREE and RDCFG (43_counter_control.md R200 to R220). -/

namespace Sys2Proof.Machine

/-- INIT's validation: the first check that fails gives the status (43_counter_control.md R201). -/
def validate (rw be : Byte) (tv hv : Bool) (capBytes : Nat) : Status :=
  if !tv then .nullTarget
  else match Width.ofField rw with
    | none => .invalidRegisterWidth
    | some w =>
      if be.toNat < w.bMin ∨ 8 * Config.idxBytes ≤ be.toNat then .invalidBucketExponent
      else if !hv then .nullHashFunction
      else if capBytes < w.imageLen be.toNat then .allocationFailure
      else .ok

/-- The number of image bytes INIT zero-fills, L(RW, BE) (43_counter_control.md R202). -/
def initImageLen (rw be : Byte) : Nat :=
  match Width.ofField rw with
  | none => 0
  | some w => w.imageLen be.toNat

/-- INIT's success: the configuration, the zero-filled image, ACTIVE (43_counter_control.md R202). -/
def State.initialise (s : State) (rw be : Byte) : State :=
  { s with
    cfgR := rw
    cfgB := be
    store := Store.zeroFill (initImageLen rw be) s.store
    life := .active }

/-- INIT: validate a configuration, zero-fill the image, in every lifecycle state (43_counter_control.md
R200 to R203; 30_encoding.md R81). -/
def execInit (rw be : Byte) (tv hv : Bool) (s : State) : Answer :=
  unlessFaulted s <|
    match validate rw be tv hv s.capBytes.toNat with
    | .ok => .next ((s.initialise rw be).respond .ok 0 0)
    | st => .next (s.respond st 0 0)

/-- update(q, k): the register becomes max(old, min(k, cap)), written only where it grows
(43_counter_control.md R211). -/
def State.updateReg (s : State) (w : Width) (q k : Nat) : State :=
  if (s.getReg w q).toNat < saturate w k then s.setReg w q (BitVec.ofNat 8 (saturate w k)) else s

/-- ADD in ACTIVE (43_counter_control.md R210). -/
def addActive (hash : HashIn) (s : State) (c : ActiveConfig) : Answer :=
  .next ((s.updateReg c.width (bucket c hash) (rank c.width hash)).respond .ok 0 0)

/-- ADD: insert one item by its hash bytes (43_counter_control.md R210; gate 30_encoding.md R81). -/
def execAdd (hash : HashIn) (s : State) : Answer :=
  unlessFaulted s <|
    lifecycleGate s (.next (s.respond .ok 0 0)) (withConfig s (addActive hash s)) .useAfterFree

/-- FREE: release the register buffer; only STATE changes (43_counter_control.md R215; gate
30_encoding.md R81). -/
def execFree (s : State) : Answer :=
  unlessFaulted s <|
    lifecycleGate s (.next (s.respond .ok 0 0)) (.next ({ s with life := .freed }.respond .ok 0 0))
      .doubleFree

/-- RSP_DATA0 of RDCFG: STATE 1:0, CFG_R 15:8, CFG_B 23:16, IDX_BYTES 31:24 (43_counter_control.md
R220). -/
def configWord (s : State) : DWord :=
  (BitVec.ofNat 8 Config.idxBytes ++ s.cfgB ++ s.cfgR ++ 0#6 ++ s.life.code).setWidth 64

/-- RDCFG: read the configuration and lifecycle state, in every lifecycle state (43_counter_control.md
R220; 30_encoding.md R81). -/
def execRdcfg (s : State) : Answer :=
  unlessFaulted s (.next (s.respond .ok (configWord s) s.capBytes))

end Sys2Proof.Machine
end

