-- ==== Sys2Proof/Machine/Dispatch.lean ====
section
/-! DEFINITION. One arm per command (30_encoding.md R76). -/

namespace Sys2Proof.Machine

def exec (i : Instr) (s : State) : Host.Outcome State Fault Refusal :=
  match i with
  | .init rw be tv hv => Sys2Proof.Machine.execInit rw be tv hv s
  | .add hash => Sys2Proof.Machine.execAdd hash s
  | .count => Sys2Proof.Machine.execCount s
  | .free => Sys2Proof.Machine.execFree s
  | .rget index => Sys2Proof.Machine.execRget index s
  | .rdbyte offset => Sys2Proof.Machine.execRdbyte offset s
  | .extract hash => Sys2Proof.Machine.execExtract hash s
  | .rdcfg => Sys2Proof.Machine.execRdcfg s

end Sys2Proof.Machine
end

