-- ==== Sys2Proof/Machine/Serve.lean ====
section
/-! DEFINITION. Serving the host's next input: a request, decoded and dispatched, or the reset input
(30_encoding.md R80; 70_reset_and_hazards.md R270, R280). -/

namespace Sys2Proof.Machine

/-- One request: an illegal word is answered as such, a legal one runs its command. The fault mask of
30_encoding.md R80 stands first in both. -/
def serveRequest (q : Request) (s : State) : Answer :=
  match decode q with
  | .error _ => answerIllegal s
  | .ok i => exec i s

/-- One input of the host (60_exceptions.md R255). -/
def serveInput (x : HostInput) (s : State) : Answer :=
  match x with
  | .request q => serveRequest q s
  | .reset => .next s.takeReset

/-- Serve the host's next input and move its position on by one; with no input left the block is idle
and keeps all state (10_state.md R30; 60_exceptions.md R256). -/
def serve (s : State) : Answer :=
  match s.nextInput? with
  | none => .next s
  | some x => advanceAnswer (serveInput x s)

/-- A state whose host sends the request as its next input, the rest of its sequence kept. -/
def State.withRequest (s : State) (q : Request) : State :=
  { s with
    script := s.script.take s.pos ++ .request q :: s.script.drop (s.pos + 1)
    pos := (s.script.take s.pos).length }

end Sys2Proof.Machine
end

