-- ==== Sys2Proof/Machine/Step.lean ====
section
/-! DEFINITION. The step of the machine: one input of the host served (20_memory.md R55). -/

namespace Sys2Proof.Machine

/-- One step: the host's next input, a request or reset, served whole (20_memory.md R55;
30_encoding.md R80). Time is left out (log entry 9). -/
def step (s : State) : Host.Outcome State Fault Refusal := serve s

/-- The state with the request whose bits are w as the host's next request (log entry 4). -/
def State.withFetchWord (s : State) (nbits w : Nat) : State := s.withRequest (requestOfBits nbits w)

end Sys2Proof.Machine
end

