-- ==== Sys2Proof/Safety.lean ====
section
/-! DEFINITION. The terms statements use: when a command does its work, the invariant of the machine, when
two states cannot be told apart, and what a run reports (10_state.md R20 to R29, R34; 60_exceptions.md
R257). -/

namespace Sys2Proof.Safety

open Sys2Proof.Machine

/-- The state runs a command's own rule at configuration c: no fault, ACTIVE, a legal configuration
(30_encoding.md R80, R81; 10_state.md R23). -/
abbrev Ready (s : State) (c : ActiveConfig) : Prop :=
  s.fault = false ∧ s.life = .active ∧ s.config? = some c

/-- STORE is in canonical form and lists only bytes it has; CAP_BYTES is at least 1 (10_state.md R26;
00_scope.md R6). -/
abbrev StoreOk (s : State) : Prop :=
  Store.wf s.store = true ∧ (∀ x ∈ s.store, x.1 < s.capBytes.toNat) ∧ s.capBytes ≠ 0

/-- FAULT is 1 exactly when a cause is named, and then the response registers hold (7, cause, 0); no
status above 8 is held (10_state.md R24, R25; 60_exceptions.md R240, R245). -/
abbrev FaultOk (s : State) : Prop :=
  (s.fault = true ↔ s.faultCause ≠ .none) ∧
  (s.fault = true →
    s.rspStatus = 7 ∧ s.rspData0 = s.faultCause.code.setWidth 64 ∧ s.rspData1 = 0) ∧
  s.rspStatus.toNat ≤ 8

/-- The configuration is 0 before the first INIT and legal after it (10_state.md R21 to R23). -/
abbrev ConfigOk (s : State) : Prop :=
  (s.life = .uninit → s.cfgR = 0 ∧ s.cfgB = 0) ∧ (s.life ≠ .uninit → s.config?.isSome = true)

/-- While ACTIVE every byte of the image has been written, and for r = 6 the pad byte at the image's end
is 0 (10_state.md R26, R34). -/
abbrev ImageOk (s : State) : Prop :=
  s.life = .active →
    (∀ a, a < initImageLen s.cfgR s.cfgB → (Store.read? s.store a).isSome = true) ∧
    (s.cfgR = 6 → Store.read? s.store (initImageLen s.cfgR s.cfgB - 1) = some 0)

/-- The host's position lies in its sequence or at its end (10_state.md R30). -/
abbrev ScriptOk (s : State) : Prop := s.pos ≤ s.script.length

/-- The invariant of the machine: it holds at reset and every step keeps it. -/
abbrev Inv (s : State) : Prop := StoreOk s ∧ FaultOk s ∧ ConfigOk s ∧ ImageOk s ∧ ScriptOk s

/-- Two states differ at most in bytes of STORE that belong to no image: bytes beyond it, and all of
STORE in UNINIT and FREED (10_state.md R34; 92_eei_decisions.md D27). -/
abbrev Indistinguishable (s t : State) : Prop :=
  t = { s with store := t.store, storeEpoch := t.storeEpoch } ∧
  (s.life = .active → ∀ a, a < initImageLen s.cfgR s.cfgB → s.loadByte a = t.loadByte a)

/-- Two answers are of one kind: next states that cannot be told apart, or the same stop. -/
def AnswersIndistinguishable : Answer → Answer → Prop
  | .next s, .next t => Indistinguishable s t
  | .fault f, .fault g => f = g
  | .refused r, .refused q => r = q
  | _, _ => False

/-- The response registers, as a triple (10_state.md R27). -/
def response (s : State) : Byte × DWord × DWord := (s.rspStatus, s.rspData0, s.rspData1)

/-- A block with the host's inputs before it (60_exceptions.md R257). -/
def issue (s : State) (inputs : List HostInput) : State := { s with script := inputs, pos := 0 }

/-- So many steps, stopping at the first stop. -/
def runFor : Nat → State → Answer
  | 0, s => .next s
  | n + 1, s =>
    match step s with
    | .next t => runFor n t
    | .fault f => .fault f
    | .refused r => .refused r

/-- The responses of so many steps, one for each request (60_exceptions.md R257). -/
def responses : Nat → State → List (Byte × DWord × DWord)
  | 0, _ => []
  | n + 1, s =>
    match step s with
    | .next t =>
      (match s.nextInput? with
        | some (.request _) => [response t]
        | _ => []) ++ responses n t
    | _ => []

/-- What a run reports: its final state, or a fault outcome where the final state has FAULT = 1
(60_exceptions.md R246, R257). -/
def runOutcome (s : State) (inputs : List HostInput) : Answer :=
  match runFor inputs.length (issue s inputs) with
  | .next t => if t.fault then .fault (.contractViolation t.faultCause) else .next t
  | .fault f => .fault f
  | .refused r => .refused r

/-- So many ADDs in a row (43_counter_control.md R212). -/
def addAll : List HashIn → State → Answer
  | [], s => .next s
  | h :: hs, s =>
    match exec (.add h) s with
    | .next t => addAll hs t
    | .fault f => .fault f
    | .refused r => .refused r

/-- The contract violation a command commits in a state with FAULT = 0, as the table of causes lists
them; none where it commits none (60_exceptions.md R243). -/
def violation (i : Instr) (s : State) : FaultCause :=
  match s.life with
  | .uninit => .none
  | .freed =>
    match i with
    | .init _ _ _ _ => .none
    | .rdcfg => .none
    | .free => .doubleFree
    | .add _ => .useAfterFree
    | .count => .useAfterFree
    | .rget _ => .useAfterFree
    | .rdbyte _ => .useAfterFree
    | .extract _ => .useAfterFree
  | .active =>
    match i with
    | .rget index => if 2 ^ s.cfgB.toNat ≤ index.toNat then .indexOutOfRange else .none
    | .rdbyte offset =>
      if initImageLen s.cfgR s.cfgB ≤ offset.toNat then .byteOffsetOutOfRange else .none
    | .init _ _ _ _ => .none
    | .add _ => .none
    | .count => .none
    | .free => .none
    | .extract _ => .none
    | .rdcfg => .none

/-- alpha(b) in Q, each decimal literal the rational it spells (42_estimator.md R172). -/
def alphaQ (b : Nat) : ℚ :=
  if b ≤ 4 then 0.673
  else if b = 5 then 0.697
  else if b = 6 then 0.709
  else 0.7213 / (1 + 1.079 / 2 ^ b)

/-- S in Q, the sum of 2^(-v) over the registers (42_estimator.md R170). -/
def sumQ (s : State) (c : ActiveConfig) : ℚ :=
  ∑ i ∈ Finset.range c.regCount, (1 / 2 : ℚ) ^ (s.getReg c.width i).toNat

/-- E in Q, alpha(b) * m^2 / S (42_estimator.md R173). -/
def rawQ (s : State) (c : ActiveConfig) : ℚ :=
  alphaQ c.exponent * (c.regCount : ℚ) ^ 2 / sumQ s c

/-- Whether some enclosure LINCOUNT tries settles its rounding (42_estimator.md R175). Log entry 3. -/
def lincountSettles (m z : Nat) : (tries n : Nat) → Bool
  | 0, n => decide (rne64 (lincountLower m z n) = rne64 (lincountUpper m z n))
  | tries + 1, n =>
    decide (rne64 (lincountLower m z n) = rne64 (lincountUpper m z n)) ||
      lincountSettles m z tries (2 * n)

/-- The mnemonic of a command (30_encoding.md R76). -/
def mnemonic : Instr → String
  | .init _ _ _ _ => "INIT"
  | .add _ => "ADD"
  | .count => "COUNT"
  | .free => "FREE"
  | .rget _ => "RGET"
  | .rdbyte _ => "RDBYTE"
  | .extract _ => "EXTRACT"
  | .rdcfg => "RDCFG"

end Sys2Proof.Safety
end

