-- ==== Sys2Proof/Certificates/Slice0/Obligations.lean ====
section
/-! DEFINITION. The statements about the machine, each from the rules it names. -/

open Sys2Proof Sys2Proof.Machine Sys2Proof.Safety

/-! Encoding and decoding -/

/-- Decoding what the encoder makes of a command gives the command back, every operand at every value:
no bit of an encoding is dropped (30_encoding.md R72 to R76). -/
def Obligations.DecodeEncodeRoundTrip : Prop :=
  ∀ i : Instr, decode (encode i) = .ok i

/-- A command read from a word encodes to that word: each legal word has one meaning (30_encoding.md
R72 to R76). -/
def Obligations.DecodedWordEncodesBack : Prop :=
  ∀ (q : Request) (i : Instr), decode q = .ok i →
    encodeWord i = q.cmd ∧ decode ⟨q.cmd, encodeArg i, encodeHash i⟩ = .ok i

/-- A word is the command of a row iff it matches the row's pattern under its mask, and no other word is
a command (30_encoding.md R78). -/
def Obligations.LegalWordsExactly : Prop :=
  (∀ row ∈ legalRows, ∀ q : Request,
    row.matches q.cmd = true ↔ ∃ i, decode q = .ok i ∧ mnemonic i = row.mnemonic) ∧
  (∀ q : Request, ∀ i, decode q = .ok i → ∃ row ∈ legalRows, row.matches q.cmd = true)

/-- Exactly the words with a reserved opcode or a reserved bit set are illegal, and an illegal word is
answered (6, 0, 0) with nothing else changed, FAULT included (30_encoding.md R77). -/
def Obligations.IllegalWordsAnsweredAndHarmless : Prop :=
  (∀ q : Request,
    (∃ e, decode q = .error e) ↔
      (opField q.cmd = 0 ∨ 9 ≤ (opField q.cmd).toNat ∨
        (opField q.cmd = 1 ∧ rsvI q.cmd ≠ 0) ∨
        (2 ≤ (opField q.cmd).toNat ∧ (opField q.cmd).toNat ≤ 8 ∧ rsvN q.cmd ≠ 0))) ∧
  (∀ (s : State) (q : Request) (e : IllegalWord),
    s.nextInput? = some (.request q) → decode q = .error e → s.fault = false →
      step s = .next { s with rspStatus := 6, rspData0 := 0, rspData1 := 0, pos := s.pos + 1 })

/-- The worked encodings of the spec and one word of every other command decode to what they stand for
(30_encoding.md R78; R85 is marked [derived] by the spec). -/
def Obligations.WorkedEncodingsDecode : Prop :=
  decode (Asm.word 0x00301041) = .ok (.init 4 1 true true) ∧
  decode (Asm.word 0x00302061) = .ok (.init 6 2 true true) ∧
  decode (Asm.word 0x0030B061) = .ok (.init 6 11 true true) ∧
  decode (Asm.word 0x00300081) = .ok (.init 8 0 true true) ∧
  decode (Asm.word 0x00302081) = .ok (.init 8 2 true true) ∧
  decode (Asm.word 0x00303081) = .ok (.init 8 3 true true) ∧
  decode (Asm.word 0x00304051) = .ok (.init 5 4 true true) ∧
  decode (Asm.word 0x00340081) = .ok (.init 8 64 true true) ∧
  decode (Asm.word 0x00300041) = .ok (.init 4 0 true true) ∧
  decode (Asm.word 0x00202081) = .ok (.init 8 2 false true) ∧
  decode (Asm.word 0x00102081) = .ok (.init 8 2 true false) ∧
  decode (Asm.word 0x00000002) = .ok (.add hashZero) ∧
  decode (Asm.word 0x00000003) = .ok .count ∧
  decode (Asm.word 0x00000004) = .ok .free ∧
  decode (Asm.word 0x00000005) = .ok (.rget 0) ∧
  decode (Asm.word 0x00000006) = .ok (.rdbyte 0) ∧
  decode (Asm.word 0x00000007) = .ok (.extract hashZero) ∧
  decode (Asm.word 0x00000008) = .ok .rdcfg

/-- ARG matters only to RGET and RDBYTE, HASH_IN only to ADD and EXTRACT, and there only in its first
HL(r) bytes (30_encoding.md R79). -/
def Obligations.UnusedPortsIgnored : Prop :=
  (∀ (s : State) (q q' : Request), q.cmd = q'.cmd →
    (opField q.cmd = 5 ∨ opField q.cmd = 6 → q.arg = q'.arg) →
    (opField q.cmd = 2 ∨ opField q.cmd = 7 → q.hashIn = q'.hashIn) →
    serveRequest q s = serveRequest q' s) ∧
  (∀ (s : State) (h h' : HashIn),
    (∀ c, s.config? = some c → ∀ j, j < c.width.hashLen → h.toList[j]? = h'.toList[j]?) →
    exec (.add h) s = exec (.add h') s ∧ exec (.extract h) s = exec (.extract h') s)

/-! The step -/

/-- A step whose next input is a request that decodes to a command runs that command and moves the host's
position on by one (30_encoding.md R80; 10_state.md R30). -/
def Obligations.StepRunsDecodedCommand : Prop :=
  ∀ (s : State) (q : Request) (i : Instr),
    s.nextInput? = some (.request q) → decode q = .ok i → step s = advanceAnswer (exec i s)

/-- With no input from the host the block keeps all state (60_exceptions.md R256). -/
def Obligations.IdleBlockKeepsState : Prop :=
  ∀ s : State, s.nextInput? = none → step s = .next s

/-- The host's position advances by exactly one per request answered, no command changes it otherwise, and
its sequence never changes (10_state.md R30). That the reset input, which is no command, is an entry of the
sequence and moves the position on by one too is the model's own (log entry 4). -/
def Obligations.PositionAdvancesByOne : Prop :=
  (∀ (s t : State) (x : HostInput), s.nextInput? = some x → step s = .next t →
    t.pos = s.pos + 1 ∧ t.script = s.script) ∧
  (∀ (i : Instr) (s t : State), exec i s = .next t → t.pos = s.pos ∧ t.script = s.script)

/-- While FAULT = 1 every request, legal or not, is answered (7, FAULT_CAUSE, 0) and changes no other
state (60_exceptions.md R245). -/
def Obligations.FaultMasksEveryRequest : Prop :=
  (∀ (s : State) (q : Request), s.fault = true → s.nextInput? = some (.request q) →
    step s = .next { s with
      rspStatus := 7, rspData0 := s.faultCause.code.setWidth 64, rspData1 := 0,
      pos := s.pos + 1 }) ∧
  (∀ (i : Instr) (s : State), s.fault = true →
    exec i s = .next { s with
      rspStatus := 7, rspData0 := s.faultCause.code.setWidth 64, rspData1 := 0 })

/-- The values reset leaves: STATE, CFG_R, CFG_B, FAULT, FAULT_CAUSE and the response registers 0
(70_reset_and_hazards.md R270). That nothing of STORE is listed and the host has no input yet is the
model's own (log entries 1 and 4). -/
def Obligations.ResetLeavesTheseValues : Prop :=
  State.reset.life.code = 0 ∧ State.reset.cfgR = 0 ∧ State.reset.cfgB = 0 ∧
  State.reset.fault = false ∧ State.reset.faultCause.code = 0 ∧
  State.reset.rspStatus = 0 ∧ State.reset.rspData0 = 0 ∧ State.reset.rspData1 = 0 ∧
  State.reset.store = [] ∧ State.reset.script = [] ∧ State.reset.pos = 0

/-- The reset input is served in every state, clears FAULT and sets every element to its reset value;
CAP_BYTES and the host's sequence stand. Each byte of STORE is then unspecified anew
(70_reset_and_hazards.md R270; log entries 1 and 4). -/
def Obligations.ResetInputClearsEverything : Prop :=
  ∀ s : State, s.nextInput? = some .reset →
    ∃ t, step s = .next t ∧
      t.life = .uninit ∧ t.cfgR = 0 ∧ t.cfgB = 0 ∧ t.fault = false ∧ t.faultCause = .none ∧
      t.rspStatus = 0 ∧ t.rspData0 = 0 ∧ t.rspData1 = 0 ∧
      (∀ a, t.loadByte a = Config.unspecifiedByte (s.storeEpoch + 1) a) ∧
      t.capBytes = s.capBytes ∧ t.script = s.script ∧ t.pos = s.pos + 1

/-! The lifecycle gate and faults -/

/-- In UNINIT: ADD and FREE are absorbed, COUNT gives the NaN sentinel, the inspection commands respond
NotInitialized; nothing else changes (30_encoding.md R81; 60_exceptions.md R242). -/
def Obligations.GateInUninit : Prop :=
  ∀ s : State, s.fault = false → s.life = .uninit →
    (∀ h, exec (.add h) s = .next { s with rspStatus := 0, rspData0 := 0, rspData1 := 0 }) ∧
    exec .count s =
      .next { s with rspStatus := 0, rspData0 := 0x7FF8000000000000, rspData1 := 0 } ∧
    exec .free s = .next { s with rspStatus := 0, rspData0 := 0, rspData1 := 0 } ∧
    (∀ a, exec (.rget a) s = .next { s with rspStatus := 8, rspData0 := 0, rspData1 := 0 }) ∧
    (∀ a, exec (.rdbyte a) s = .next { s with rspStatus := 8, rspData0 := 0, rspData1 := 0 }) ∧
    (∀ h, exec (.extract h) s = .next { s with rspStatus := 8, rspData0 := 0, rspData1 := 0 })

/-- In FREED: ADD, COUNT, RGET, RDBYTE and EXTRACT take the fault UseAfterFree, FREE takes DoubleFree;
nothing but FAULT, FAULT_CAUSE and the response changes (30_encoding.md R81; 60_exceptions.md R246). -/
def Obligations.GateInFreed : Prop :=
  ∀ s : State, s.fault = false → s.life = .freed →
    (∀ i : Instr,
      (∃ h, i = .add h) ∨ i = .count ∨ (∃ a, i = .rget a) ∨ (∃ a, i = .rdbyte a) ∨
        (∃ h, i = .extract h) →
      exec i s = .next { s with
        fault := true, faultCause := .useAfterFree,
        rspStatus := 7, rspData0 := 3, rspData1 := 0 }) ∧
    exec .free s = .next { s with
      fault := true, faultCause := .doubleFree,
      rspStatus := 7, rspData0 := 4, rspData1 := 0 }

/-- A command faults exactly when it commits a contract violation of the table of causes, with that
cause and with nothing but FAULT, FAULT_CAUSE and the response changed (60_exceptions.md R243, R246). The
premise on the configuration is part of the invariant (log entry 5). -/
def Obligations.FaultsExactlyOnViolations : Prop :=
  ∀ (i : Instr) (s : State), s.fault = false →
    (s.life = .active → s.config?.isSome = true) →
    (violation i s ≠ .none →
      exec i s = .next { s with
        fault := true, faultCause := violation i s,
        rspStatus := 7, rspData0 := (violation i s).code.setWidth 64, rspData1 := 0 }) ∧
    (violation i s = .none →
      ∃ t, exec i s = .next t ∧ t.fault = false ∧ t.faultCause = s.faultCause ∧ t.rspStatus ≠ 7)

/-- No command clears FAULT or changes FAULT_CAUSE once FAULT is set; only the reset input leaves the
fault state (60_exceptions.md R247). -/
def Obligations.FaultStickyUntilReset : Prop :=
  (∀ (i : Instr) (s t : State), s.fault = true → exec i s = .next t →
    t.fault = true ∧ t.faultCause = s.faultCause) ∧
  (∀ s t : State, s.fault = true → step s = .next t → t.fault = false →
    s.nextInput? = some .reset)

/-- Every command answers with one of the statuses the spec lists for it, none above 8, and with
statuses 1 to 6 and 8 it changes nothing but the response registers (60_exceptions.md R240, R241). -/
def Obligations.StatusesPerCommand : Prop :=
  ∀ (i : Instr) (s t : State), exec i s = .next t →
    t.rspStatus.toNat ∈
      (match i with
        | .init _ _ _ _ => [0, 1, 2, 3, 4, 5, 7]
        | .add _ => [0, 7]
        | .count => [0, 7]
        | .free => [0, 7]
        | .rget _ => [0, 7, 8]
        | .rdbyte _ => [0, 7, 8]
        | .extract _ => [0, 7, 8]
        | .rdcfg => [0, 7]) ∧
    (t.rspStatus.toNat ≠ 0 → t.rspStatus.toNat ≠ 7 →
      s.fault = false ∧
      t = { s with
        rspStatus := t.rspStatus, rspData0 := t.rspData0, rspData1 := t.rspData1 })

/-! INIT -/

/-- INIT's checks in their order, the first that fails giving the status, 0 where none fails; a failed
INIT writes only the response registers (43_counter_control.md R201, R203). -/
def Obligations.InitRejectsInOrder : Prop :=
  ∀ (s : State) (rw be : Byte) (tv hv : Bool), s.fault = false →
    let bMin := if rw = 4 then 1 else if rw = 6 then 2 else 0
    let len := if rw = 4 then 2 ^ be.toNat / 2
      else if rw = 6 then 3 * (2 ^ be.toNat / 4) + 1 else 2 ^ be.toNat
    let failed : Byte → Answer := fun st =>
      .next { s with rspStatus := st, rspData0 := 0, rspData1 := 0 }
    (tv = false → exec (.init rw be tv hv) s = failed 1) ∧
    (tv = true → ¬ (rw = 4 ∨ rw = 6 ∨ rw = 8) → exec (.init rw be tv hv) s = failed 2) ∧
    (tv = true → (rw = 4 ∨ rw = 6 ∨ rw = 8) → (be.toNat < bMin ∨ 64 ≤ be.toNat) →
      exec (.init rw be tv hv) s = failed 3) ∧
    (tv = true → (rw = 4 ∨ rw = 6 ∨ rw = 8) → bMin ≤ be.toNat → be.toNat < 64 → hv = false →
      exec (.init rw be tv hv) s = failed 4) ∧
    (tv = true → (rw = 4 ∨ rw = 6 ∨ rw = 8) → bMin ≤ be.toNat → be.toNat < 64 → hv = true →
      s.capBytes.toNat < len → exec (.init rw be tv hv) s = failed 5) ∧
    (tv = true → (rw = 4 ∨ rw = 6 ∨ rw = 8) → bMin ≤ be.toNat → be.toNat < 64 → hv = true →
      len ≤ s.capBytes.toNat → ∃ t, exec (.init rw be tv hv) s = .next t ∧ t.rspStatus = 0)

/-- A successful INIT, from any lifecycle state: CFG_R and CFG_B set, every byte of the image 0, no byte
beyond the image written, STATE = ACTIVE, response (0, 0, 0), nothing else changed
(43_counter_control.md R202). -/
def Obligations.InitSucceeds : Prop :=
  ∀ (s : State) (rw be : Byte) (w : Width), s.fault = false → Width.ofField rw = some w →
    w.bMin ≤ be.toNat → be.toNat < 64 → w.imageLen be.toNat ≤ s.capBytes.toNat →
    ∃ t, exec (.init rw be true true) s = .next t ∧
      t = { s with
        life := .active, cfgR := rw, cfgB := be, store := t.store,
        rspStatus := 0, rspData0 := 0, rspData1 := 0 } ∧
      (∀ a, t.loadByte a = if a < w.imageLen be.toNat then 0 else s.loadByte a)

/-- An INIT that responds OK leaves every register 0 and a configuration that is legal while ACTIVE
(inferences the spec marks as its own: 43_counter_control.md R202, 10_state.md R23). -/
def Obligations.InitLeavesZeroRegisters : Prop :=
  ∀ (s t : State) (rw be : Byte) (tv hv : Bool), s.fault = false →
    exec (.init rw be tv hv) s = .next t → t.rspStatus = 0 →
      ∃ c, Ready t c ∧ rw = BitVec.ofNat 8 c.width.bits ∧ be.toNat = c.exponent ∧
        ∀ i, i < c.regCount → t.getReg c.width i = 0

/-! ADD -/

/-- ADD in ACTIVE: the register of the item's bucket becomes max(old, min(rank, cap)), STORE is not
written where the rank does not exceed the register, every other register stays, response (0, 0, 0)
(43_counter_control.md R210, R211). -/
def Obligations.AddMergesRank : Prop :=
  ∀ (s : State) (c : ActiveConfig) (h : HashIn), Ready s c →
    ∃ t, exec (.add h) s = .next t ∧
      t = { s with store := t.store, rspStatus := 0, rspData0 := 0, rspData1 := 0 } ∧
      bucket c h < c.regCount ∧
      (t.getReg c.width (bucket c h)).toNat =
        max (s.getReg c.width (bucket c h)).toNat (min (rank c.width h) c.width.cap) ∧
      (min (rank c.width h) c.width.cap ≤ (s.getReg c.width (bucket c h)).toNat →
        t.store = s.store) ∧
      (∀ j, j ≠ bucket c h → t.getReg c.width j = s.getReg c.width j)

/-- ADD changes no bit of STORE but the r bits of its bucket's register, so no byte outside the bytes of
that register's access, and no other state but the response (inferences the spec marks as its own:
40_register_file.md R110; 43_counter_control.md R212 (d)). -/
def Obligations.AddFrame : Prop :=
  ∀ (s t : State) (c : ActiveConfig) (h : HashIn), Ready s c → exec (.add h) s = .next t →
    (∀ n, n < c.width.bits * bucket c h ∨ c.width.bits * bucket c h + c.width.bits ≤ n →
      t.storeBit n = s.storeBit n) ∧
    (∀ a, a < c.width.byteIndex (bucket c h) ∨
        c.width.byteIndex (bucket c h) + c.width.accessBytes ≤ a →
      t.loadByte a = s.loadByte a) ∧
    t = { s with store := t.store, rspStatus := 0, rspData0 := 0, rspData1 := 0 }

/-- ADD with the same hash bytes twice in a row leaves the same state as once, in every state (an
inference the spec marks as its own: 43_counter_control.md R212 (a)). -/
def Obligations.AddIdempotent : Prop :=
  ∀ (h : HashIn) (s t : State), exec (.add h) s = .next t → exec (.add h) t = .next t

/-- Any sequence of ADDs leaves in each register the maximum of its old value and the saturated ranks of
the items of its bucket, whatever the order (an inference the spec marks as its own:
43_counter_control.md R212 (b), (c)). -/
def Obligations.AddsLeaveTheMaximum : Prop :=
  ∀ (s : State) (c : ActiveConfig) (hs : List HashIn), Ready s c →
    ∃ t, addAll hs s = .next t ∧ Ready t c ∧
      (∀ i, (t.getReg c.width i).toNat =
        ((hs.filter (fun h => bucket c h = i)).map
          (fun h => min (rank c.width h) c.width.cap)).foldr max (s.getReg c.width i).toNat) ∧
      (∀ hs', hs.Perm hs' → ∃ t', addAll hs' s = .next t' ∧
        ∀ n, t'.storeBit n = t.storeBit n)

/-! COUNT -/

/-- COUNT in ACTIVE answers the estimate of the exact rational formula: E = alpha(b) * m^2 / S, linear
counting where E <= (5/2) * m (+0.0 where no register is empty), else E rounded once; nothing but the
response changes (42_estimator.md R170 to R173, R176, R177, R184). -/
def Obligations.CountComputesTheEstimate : Prop :=
  ∀ (s : State) (c : ActiveConfig), Ready s c →
    exec .count s = .next { s with
      rspStatus := 0
      rspData0 :=
        (if rawQ s c ≤ 5 / 2 * (c.regCount : ℚ) then
          (if 0 < ((Finset.range c.regCount).filter (fun i => s.getReg c.width i = 0)).card then
            lincount c.regCount
              ((Finset.range c.regCount).filter (fun i => s.getReg c.width i = 0)).card
          else 0)
        else rne64 ⟨(rawQ s c).num.toNat, (rawQ s c).den⟩)
      rspData1 := 0 }

/-- The branch of COUNT never meets equality: E is never (5/2) * m (an inference the spec marks as its
own: 42_estimator.md R176). -/
def Obligations.CountBranchNeverTies : Prop :=
  ∀ (s : State) (c : ActiveConfig), rawQ s c ≠ 5 / 2 * (c.regCount : ℚ)

/-- COUNT of an image whose every register is 0 responds (0, +0.0, 0) (an inference the spec marks as its
own: 42_estimator.md R178). -/
def Obligations.CountOfFreshImageIsZero : Prop :=
  ∀ (s : State) (c : ActiveConfig), Ready s c →
    (∀ i, i < c.regCount → s.getReg c.width i = 0) →
    exec .count s = .next { s with rspStatus := 0, rspData0 := 0, rspData1 := 0 }

/-- In ACTIVE COUNT's result is never a NaN, never infinite, never negative and never -0.0, and COUNT
answers a NaN only in UNINIT (an inference the spec marks as its own: 42_estimator.md R179). -/
def Obligations.CountNeverNaN : Prop :=
  (∀ (s : State) (c : ActiveConfig), Ready s c →
    ∃ t, exec .count s = .next t ∧ finiteNonneg t.rspData0 = true ∧ isNaN t.rspData0 = false) ∧
  (∀ s t : State, exec .count s = .next t → isNaN t.rspData0 = true → s.life = .uninit)

/-- COUNT writes no state but the response, except that the fault it takes in FREED sets FAULT and
FAULT_CAUSE, and calling it twice in a row gives the same response and state (an inference the spec marks as
its own: 42_estimator.md R181). -/
def Obligations.CountTwiceSameAnswer : Prop :=
  ∀ s t : State, exec .count s = .next t →
    exec .count t = .next t ∧
    t = { s with
      fault := t.fault, faultCause := t.faultCause,
      rspStatus := t.rspStatus, rspData0 := t.rspData0, rspData1 := t.rspData1 } ∧
    (s.fault = true ∨ s.life ≠ .freed → t.fault = s.fault ∧ t.faultCause = s.faultCause)

/-- RNE64 gives the finite binary64 number nearest to an exact rational below 2^1023, and of two nearest
numbers the one with even significand (00_scope.md R11, general knowledge by the spec's own mark; log
entry 7). -/
def Obligations.RoundingIsNearestEven : Prop :=
  ∀ x : Frac, 0 < x.den → x.num < 2 ^ (minExp + 1) * x.den →
    let err : Nat → ℤ := fun g => |(x.num * 2 ^ (minExp + 52) : ℤ) - x.den * (binary64Scaled g : ℤ)|
    roundBits x < 2047 * 2 ^ 52 ∧
    ∀ g, g < 2047 * 2 ^ 52 →
      err (roundBits x) ≤ err g ∧ (err (roundBits x) = err g → g ≠ roundBits x → roundBits x % 2 = 0)

/-- LINCOUNT(m, Z) for Z < m is the rounding of a bound of m * ln(m/Z), from a pair of rationals of
24 * 2^k terms, k at most 5, that encloses it; either both bounds round to that one number or k = 5, the last
try. LINCOUNT(m, m) = +0.0 (42_estimator.md R175; log entry 3). -/
def Obligations.LincountIsEnclosed : Prop :=
  (∀ m : Nat, lincount m m = 0) ∧
  (∀ m z : Nat, 1 ≤ z → z < m → ∃ k n, k ≤ 5 ∧ n = 24 * 2 ^ k ∧
    ((lincountLower m z n).num : ℝ) / (lincountLower m z n).den ≤ m * Real.log ((m : ℝ) / z) ∧
    m * Real.log ((m : ℝ) / z) ≤ ((lincountUpper m z n).num : ℝ) / (lincountUpper m z n).den ∧
    (lincount m z = rne64 (lincountLower m z n) ∨ lincount m z = rne64 (lincountUpper m z n)) ∧
    (rne64 (lincountLower m z n) = rne64 (lincountUpper m z n) ∨ k = 5))

/-- Where an enclosure settles it, LINCOUNT(m, Z) is the correct rounding of the exact real
m * ln(m/Z): no finite binary64 number is nearer (42_estimator.md R175; log entry 3). -/
def Obligations.LincountIsCorrectlyRounded : Prop :=
  ∀ m z : Nat, 1 ≤ z → z < m → m ≤ 2 ^ 63 → lincountSettles m z 5 24 = true →
    (lincount m z).toNat < 2047 * 2 ^ 52 ∧
    ∀ g, g < 2047 * 2 ^ 52 →
      |m * Real.log ((m : ℝ) / z) - (binary64Scaled (lincount m z).toNat : ℝ) / 2 ^ (minExp + 52)| ≤
        |m * Real.log ((m : ℝ) / z) - (binary64Scaled g : ℝ) / 2 ^ (minExp + 52)|

/-- For one m LINCOUNT(m, Z) is non-increasing in Z, and where Z < m it is a positive normal number no
greater than LINCOUNT(m, 1) (42_estimator.md R175 (b), (c); log entry 3). -/
def Obligations.LincountNonIncreasing : Prop :=
  ∀ m z : Nat, 1 ≤ z → z < m → m ≤ 2 ^ 63 →
    (lincount m (z + 1)).toNat ≤ (lincount m z).toNat ∧
    2 ^ 52 ≤ (lincount m z).toNat ∧ (lincount m z).toNat ≤ (lincount m 1).toNat ∧
    (lincount m z).toNat < 2047 * 2 ^ 52

/-! FREE, RGET, RDBYTE, EXTRACT, RDCFG -/

/-- FREE in ACTIVE sets STATE to FREED, responds (0, 0, 0) and changes nothing else: CFG_R, CFG_B and STORE
keep their values (43_counter_control.md R215; for STORE 10_state.md R26, log entry 1). -/
def Obligations.FreeReleases : Prop :=
  ∀ s : State, s.fault = false → s.life = .active →
    exec .free s =
      .next { s with life := .freed, rspStatus := 0, rspData0 := 0, rspData1 := 0 }

/-- RGET of an index below m responds the register, zero extended, and changes nothing else
(40_register_file.md R120). -/
def Obligations.RgetReturnsRegister : Prop :=
  ∀ (s : State) (c : ActiveConfig) (index : DWord), Ready s c → index.toNat < 2 ^ c.exponent →
    exec (.rget index) s = .next { s with
      rspStatus := 0
      rspData0 := BitVec.ofNat 64 (s.getReg c.width index.toNat).toNat
      rspData1 := 0 }

/-- RDBYTE of an offset below L(r, b) responds the byte, zero extended, and changes nothing else
(40_register_file.md R121). -/
def Obligations.RdbyteReturnsByte : Prop :=
  ∀ (s : State) (c : ActiveConfig) (offset : DWord), Ready s c → offset.toNat < c.imageLen →
    exec (.rdbyte offset) s = .next { s with
      rspStatus := 0
      rspData0 := BitVec.ofNat 64 (s.loadByte offset.toNat).toNat
      rspData1 := 0 }

/-- RGET of an index from m on faults with cause 1, RDBYTE of an offset from L(r, b) on with cause 2, and
nothing but FAULT, FAULT_CAUSE and the response changes (40_register_file.md R120, R121). -/
def Obligations.RangeFaults : Prop :=
  ∀ (s : State) (c : ActiveConfig) (a : DWord), Ready s c →
    (2 ^ c.exponent ≤ a.toNat → exec (.rget a) s = .next { s with
      fault := true, faultCause := .indexOutOfRange,
      rspStatus := 7, rspData0 := 1, rspData1 := 0 }) ∧
    (c.imageLen ≤ a.toNat → exec (.rdbyte a) s = .next { s with
      fault := true, faultCause := .byteOffsetOutOfRange,
      rspStatus := 7, rspData0 := 2, rspData1 := 0 })

/-- EXTRACT in ACTIVE responds the bucket in RSP_DATA0, the rank in RSP_DATA1[15:0] and the saturated rank
in RSP_DATA1[31:16], and changes nothing else (41_rank_extractor.md R150). -/
def Obligations.ExtractReportsBucketAndRank : Prop :=
  ∀ (s : State) (c : ActiveConfig) (h : HashIn), Ready s c →
    exec (.extract h) s = .next { s with
      rspStatus := 0
      rspData0 := BitVec.ofNat 64 (bucket c h)
      rspData1 := BitVec.ofNat 64
        (2 ^ 16 * min (rank c.width h) c.width.cap + rank c.width h) } ∧
    bucket c h < 2 ^ 64 ∧ rank c.width h < 2 ^ 16

/-- RDCFG in every lifecycle state responds STATE in bits 1:0, CFG_R in 15:8, CFG_B in 23:16 and IDX_BYTES
in 31:24 of RSP_DATA0, CAP_BYTES in RSP_DATA1, and changes nothing else (43_counter_control.md R220). -/
def Obligations.RdcfgReportsConfiguration : Prop :=
  ∀ s : State, s.fault = false →
    exec .rdcfg s = .next { s with
      rspStatus := 0
      rspData0 := BitVec.ofNat 64
        (2 ^ 24 * 8 + 2 ^ 16 * s.cfgB.toNat + 2 ^ 8 * s.cfgR.toNat + s.life.code.toNat)
      rspData1 := s.capBytes }

/-- COUNT, RGET, RDBYTE, EXTRACT and RDCFG change nothing but the response registers, except that a fault
they take sets FAULT and FAULT_CAUSE; every byte of STORE reads as before (20_memory.md R57;
30_encoding.md R76). -/
def Obligations.InspectionFrame : Prop :=
  ∀ (i : Instr) (s t : State),
    i = .count ∨ (∃ a, i = .rget a) ∨ (∃ a, i = .rdbyte a) ∨ (∃ h, i = .extract h) ∨ i = .rdcfg →
    exec i s = .next t →
    t = { s with
      fault := t.fault, faultCause := t.faultCause,
      rspStatus := t.rspStatus, rspData0 := t.rspData0, rspData1 := t.rspData1 } ∧
    (∀ a, t.loadByte a = s.loadByte a) ∧
    (t.rspStatus ≠ 7 → t.fault = s.fault ∧ t.faultCause = s.faultCause)

/-! Who writes what -/

/-- Only INIT, to ACTIVE with status 0, and FREE, from ACTIVE to FREED, change STATE; only an INIT that
responds OK changes CFG_R or CFG_B (10_state.md R20 to R22). -/
def Obligations.WritersOfTheConfiguration : Prop :=
  ∀ (i : Instr) (s t : State), exec i s = .next t →
    (t.life ≠ s.life →
      (mnemonic i = "INIT" ∧ t.life = .active ∧ t.rspStatus = 0) ∨
      (i = .free ∧ s.life = .active ∧ t.life = .freed)) ∧
    (t.cfgR ≠ s.cfgR ∨ t.cfgB ≠ s.cfgB → mnemonic i = "INIT" ∧ t.rspStatus = 0)

/-- Only INIT and ADD write STORE, and no command changes CAP_BYTES, the number of resets taken or the
host's sequence and position (10_state.md R26). -/
def Obligations.WritersOfStore : Prop :=
  ∀ (i : Instr) (s t : State), exec i s = .next t →
    ((∃ a, t.loadByte a ≠ s.loadByte a) → mnemonic i = "INIT" ∨ mnemonic i = "ADD") ∧
    (mnemonic i ≠ "INIT" → mnemonic i ≠ "ADD" → t.store = s.store) ∧
    t.capBytes = s.capBytes ∧ t.storeEpoch = s.storeEpoch ∧ t.script = s.script ∧ t.pos = s.pos

/-! The rank extractor -/

/-- The index field and the rank field are little-endian integers of their bytes, and the bucket is the
index field's low b bits (00_scope.md R9; 41_rank_extractor.md R140 to R142). -/
def Obligations.HashFieldsLittleEndian : Prop :=
  ∀ (c : ActiveConfig) (h : HashIn),
    indexField h = ∑ j ∈ Finset.range 8, (h.toList.getD j 0).toNat * 2 ^ (8 * j) ∧
    rankField c.width h =
      ∑ j ∈ Finset.range c.width.rankBytes, (h.toList.getD (8 + j) 0).toNat * 2 ^ (8 * j) ∧
    bucket c h = indexField h % 2 ^ c.exponent ∧ bucket c h < 2 ^ c.exponent

/-- The rank is one more than the trailing zeros of the guarded rank field, between 1 and N
(41_rank_extractor.md R143). -/
def Obligations.RankCountsTrailingZeros : Prop :=
  ∀ (w : Width) (h : HashIn),
    1 ≤ rank w h ∧ rank w h ≤ 8 * w.rankBytes ∧
    2 ^ (rank w h - 1) ∣ rankField w h ||| 2 ^ (8 * w.rankBytes - 1) ∧
    ¬ 2 ^ rank w h ∣ rankField w h ||| 2 ^ (8 * w.rankBytes - 1)

/-- The rank is p + 1 for the lowest 1 bit p among bits 0 to N-2 of the rank field, N where they are all
0, and the saturated rank is the rank itself but for that last case, where it is cap(r) = N - 1
(inferences the spec marks as its own: 41_rank_extractor.md R143, R146). -/
def Obligations.RankIsLowestSetBit : Prop :=
  ∀ (w : Width) (h : HashIn),
    (∀ p, p < 8 * w.rankBytes - 1 → (rankField w h).testBit p = true →
      (∀ j, j < p → (rankField w h).testBit j = false) →
        rank w h = p + 1 ∧ saturate w (rank w h) = p + 1) ∧
    ((∀ p, p < 8 * w.rankBytes - 1 → (rankField w h).testBit p = false) →
      rank w h = 8 * w.rankBytes ∧ saturate w (rank w h) = w.cap) ∧
    w.cap = 8 * w.rankBytes - 1

/-- The width-8 word scan gives the rank of the 256-bit field (an inference the spec marks as its own:
41_rank_extractor.md R144). -/
def Obligations.WordScanIsTheRank : Prop :=
  ∀ h : HashIn, wordScanRank h = rank .w8 h

/-- Two hash buffers whose rank fields differ at most in bit 7 of the last byte have the same rank,
whatever their other bytes (an inference the spec marks as its own: 41_rank_extractor.md R145). -/
def Obligations.GuardHidesTheTopBit : Prop :=
  ∀ (w : Width) (h h' : HashIn),
    (∀ j, j < w.rankBytes - 1 → h.toList.getD (8 + j) 0 = h'.toList.getD (8 + j) 0) →
    (h.toList.getD (7 + w.rankBytes) 0).extractLsb' 0 7 =
      (h'.toList.getD (7 + w.rankBytes) 0).extractLsb' 0 7 →
    rank w h = rank w h'

/-! The register file -/

/-- Where each register lies in the bytes of STORE, for the three widths (40_register_file.md R101 to
R103). -/
def Obligations.RegisterLayouts : Prop :=
  ∀ (s : State) (i : Nat),
    let byte : Nat → Nat := fun a => (s.loadByte a).toNat
    let view : Nat → Nat := fun k =>
      byte k + 2 ^ 8 * byte (k + 1) + 2 ^ 16 * byte (k + 2) + 2 ^ 24 * byte (k + 3)
    (s.getReg .w4 i).toNat = (if i % 2 = 0 then byte (i / 2) % 16 else byte (i / 2) / 16) ∧
    (s.getReg .w6 i).toNat = view (3 * (i / 4)) / 2 ^ (6 * (i % 4)) % 64 ∧
    (s.getReg .w8 i).toNat = byte i

/-- The four width-6 registers of a block, byte by byte: none depends on the view's fourth byte (an
inference the spec marks as its own: 40_register_file.md R103). -/
def Obligations.Width6RegistersByteByByte : Prop :=
  ∀ (s : State) (k : Nat),
    let byte : Nat → Nat := fun a => (s.loadByte a).toNat
    (s.getReg .w6 (4 * k)).toNat = byte (3 * k) % 64 ∧
    (s.getReg .w6 (4 * k + 1)).toNat = byte (3 * k + 1) % 16 * 4 + byte (3 * k) / 64 ∧
    (s.getReg .w6 (4 * k + 2)).toNat = byte (3 * k + 2) % 4 * 16 + byte (3 * k + 1) / 16 ∧
    (s.getReg .w6 (4 * k + 3)).toNat = byte (3 * k + 2) / 4

/-- After set(i, v) with v < 2^r: get(i) = v, get(j) is unchanged for j other than i, and no bit of STORE
but the register's r bits is changed (40_register_file.md R108; R110 and R111 are inferences the spec
marks as its own). -/
def Obligations.RegisterReadAfterWrite : Prop :=
  ∀ (s : State) (w : Width) (i : Nat) (v : Byte), v.toNat < 2 ^ w.bits →
    (s.setReg w i v).getReg w i = v ∧
    (∀ j, j ≠ i → (s.setReg w i v).getReg w j = s.getReg w j) ∧
    (∀ n, (s.setReg w i v).storeBit n =
      if w.bits * i ≤ n ∧ n < w.bits * i + w.bits then v.getLsbD (n - w.bits * i)
      else s.storeBit n)

/-- All registers are 0 exactly when the image's data bytes are all 0: every byte for r = 4 and r = 8, all
but the pad byte for r = 6 (an inference the spec marks as its own: 40_register_file.md R111). -/
def Obligations.ZeroRegistersZeroBytes : Prop :=
  ∀ (s : State) (w : Width) (b : Nat), w.bMin ≤ b →
    ((∀ i, i < 2 ^ b → s.getReg w i = 0) ↔
      (∀ a, a < (if w = .w6 then w.imageLen b - 1 else w.imageLen b) → s.loadByte a = 0))

/-- A register access of a legal index touches only bytes of the image, and the register read depends on
no other byte (inferences the spec marks as its own: 20_memory.md R52, R57). -/
def Obligations.AccessStaysInsideImage : Prop :=
  ∀ (w : Width) (b i : Nat), w.bMin ≤ b → i < 2 ^ b →
    w.byteIndex i + w.accessBytes ≤ w.imageLen b ∧
    (∀ s t : State,
      (∀ a, w.byteIndex i ≤ a → a < w.byteIndex i + w.accessBytes → s.loadByte a = t.loadByte a) →
      s.getReg w i = t.getReg w i)

/-- Every register is at most cap(r), in every state, and no command but an INIT that responds OK
decreases a register (an inference the spec marks as its own: 10_state.md R29). -/
def Obligations.RegistersBoundedAndMonotone : Prop :=
  (∀ (s : State) (w : Width) (i : Nat), (s.getReg w i).toNat ≤ 2 ^ w.bits - 1) ∧
  (∀ (i : Instr) (s t : State) (c : ActiveConfig), s.config? = some c → exec i s = .next t →
    (mnemonic i ≠ "INIT" ∨ t.rspStatus ≠ 0) →
      ∀ j, (s.getReg c.width j).toNat ≤ (t.getReg c.width j).toNat)

/-! The whole machine -/

/-- The invariant holds right after reset. -/
def Obligations.ResetMeetsInvariant : Prop := Inv State.reset

/-- Every step from a state that meets the invariant leads to a state that meets it (10_state.md R20 to
R26, R34). -/
def Obligations.EveryStepKeepsInvariant : Prop :=
  ∀ s t : State, Inv s → step s = .next t → Inv t

/-- From a state that meets the invariant every step answers: every command ends, no step faults the model
and none is refused (70_reset_and_hazards.md R281). -/
def Obligations.EveryStepAnswers : Prop :=
  ∀ s : State, Inv s → ∃ t, step s = .next t

/-- Every step keeps STORE in canonical form, from every state. -/
def Obligations.StoreStaysCanonical : Prop :=
  ∀ s t : State, Store.wf s.store = true → step s = .next t → Store.wf t.store = true

/-- The bytes of STORE that belong to no image are never observed: two states that differ only in them
answer every input alike, response for response, and stay so (10_state.md R26, R34;
92_eei_decisions.md D27). -/
def Obligations.HiddenBytesNeverObserved : Prop :=
  ∀ s t : State, Indistinguishable s t → AnswersIndistinguishable (step s) (step t)

/-- A sequence of requests from a state that meets the invariant is answered request by request, exactly
one response each (30_encoding.md R70; 70_reset_and_hazards.md R281). -/
def Obligations.OneResponsePerRequest : Prop :=
  ∀ (s : State) (qs : List Request), Inv s →
    (∃ t, runFor qs.length (issue s (qs.map .request)) = .next t) ∧
    (responses qs.length (issue s (qs.map .request))).length = qs.length

/-- A run from a state that meets the invariant ends: as a fault outcome with the recorded cause exactly
where its final state has FAULT = 1, with that final state otherwise (60_exceptions.md R257). -/
def Obligations.RunReportsFaultOutcome : Prop :=
  ∀ (s : State) (inputs : List HostInput), Inv s →
    ∃ t, runFor inputs.length (issue s inputs) = .next t ∧ Inv t ∧
      (t.fault = true → ∃ c, c ≠ .none ∧ t.faultCause = c ∧
        runOutcome s inputs = .fault (.contractViolation c)) ∧
      (t.fault = false → runOutcome s inputs = .next t)
end

