-- ==== Sys2Proof/Laws/State.lean ====
section
/-! SUPPORT. What each update of the state leaves in each field. -/

namespace Sys2Proof.Machine

variable (s : State)

section
variable (st : Status) (d0 d1 : DWord)

@[simp] theorem State.respond_life : (s.respond st d0 d1).life = s.life := rfl
@[simp] theorem State.respond_cfgR : (s.respond st d0 d1).cfgR = s.cfgR := rfl
@[simp] theorem State.respond_cfgB : (s.respond st d0 d1).cfgB = s.cfgB := rfl
@[simp] theorem State.respond_fault : (s.respond st d0 d1).fault = s.fault := rfl
@[simp] theorem State.respond_faultCause : (s.respond st d0 d1).faultCause = s.faultCause := rfl
@[simp] theorem State.respond_store : (s.respond st d0 d1).store = s.store := rfl
@[simp] theorem State.respond_rspStatus : (s.respond st d0 d1).rspStatus = st.code := rfl
@[simp] theorem State.respond_rspData0 : (s.respond st d0 d1).rspData0 = d0 := rfl
@[simp] theorem State.respond_rspData1 : (s.respond st d0 d1).rspData1 = d1 := rfl
@[simp] theorem State.respond_capBytes : (s.respond st d0 d1).capBytes = s.capBytes := rfl
@[simp] theorem State.respond_storeEpoch : (s.respond st d0 d1).storeEpoch = s.storeEpoch := rfl
@[simp] theorem State.respond_script : (s.respond st d0 d1).script = s.script := rfl
@[simp] theorem State.respond_pos : (s.respond st d0 d1).pos = s.pos := rfl

end

section
variable (c : FaultCause)

@[simp] theorem State.raiseFault_life : (s.raiseFault c).life = s.life := rfl
@[simp] theorem State.raiseFault_cfgR : (s.raiseFault c).cfgR = s.cfgR := rfl
@[simp] theorem State.raiseFault_cfgB : (s.raiseFault c).cfgB = s.cfgB := rfl
@[simp] theorem State.raiseFault_fault : (s.raiseFault c).fault = true := rfl
@[simp] theorem State.raiseFault_faultCause : (s.raiseFault c).faultCause = c := rfl
@[simp] theorem State.raiseFault_store : (s.raiseFault c).store = s.store := rfl
@[simp] theorem State.raiseFault_rspStatus : (s.raiseFault c).rspStatus = Status.fault.code := rfl
@[simp] theorem State.raiseFault_rspData0 : (s.raiseFault c).rspData0 = c.code.setWidth 64 := rfl
@[simp] theorem State.raiseFault_rspData1 : (s.raiseFault c).rspData1 = 0 := rfl
@[simp] theorem State.raiseFault_capBytes : (s.raiseFault c).capBytes = s.capBytes := rfl
@[simp] theorem State.raiseFault_storeEpoch : (s.raiseFault c).storeEpoch = s.storeEpoch := rfl
@[simp] theorem State.raiseFault_script : (s.raiseFault c).script = s.script := rfl
@[simp] theorem State.raiseFault_pos : (s.raiseFault c).pos = s.pos := rfl

end

@[simp] theorem State.respondFaulted_life : (s.respondFaulted).life = s.life := rfl
@[simp] theorem State.respondFaulted_cfgR : (s.respondFaulted).cfgR = s.cfgR := rfl
@[simp] theorem State.respondFaulted_cfgB : (s.respondFaulted).cfgB = s.cfgB := rfl
@[simp] theorem State.respondFaulted_fault : (s.respondFaulted).fault = s.fault := rfl
@[simp] theorem State.respondFaulted_faultCause : (s.respondFaulted).faultCause = s.faultCause := rfl
@[simp] theorem State.respondFaulted_store : (s.respondFaulted).store = s.store := rfl
@[simp] theorem State.respondFaulted_rspStatus : (s.respondFaulted).rspStatus = Status.fault.code := rfl
@[simp] theorem State.respondFaulted_rspData0 : (s.respondFaulted).rspData0 = s.faultCause.code.setWidth 64 := rfl
@[simp] theorem State.respondFaulted_rspData1 : (s.respondFaulted).rspData1 = 0 := rfl
@[simp] theorem State.respondFaulted_capBytes : (s.respondFaulted).capBytes = s.capBytes := rfl
@[simp] theorem State.respondFaulted_storeEpoch : (s.respondFaulted).storeEpoch = s.storeEpoch := rfl
@[simp] theorem State.respondFaulted_script : (s.respondFaulted).script = s.script := rfl
@[simp] theorem State.respondFaulted_pos : (s.respondFaulted).pos = s.pos := rfl
section
variable (a : Nat) (v : Byte)

@[simp] theorem State.storeByte_life : (s.storeByte a v).life = s.life := rfl
@[simp] theorem State.storeByte_cfgR : (s.storeByte a v).cfgR = s.cfgR := rfl
@[simp] theorem State.storeByte_cfgB : (s.storeByte a v).cfgB = s.cfgB := rfl
@[simp] theorem State.storeByte_fault : (s.storeByte a v).fault = s.fault := rfl
@[simp] theorem State.storeByte_faultCause : (s.storeByte a v).faultCause = s.faultCause := rfl
@[simp] theorem State.storeByte_store : (s.storeByte a v).store = Store.write s.store a v := rfl
@[simp] theorem State.storeByte_rspStatus : (s.storeByte a v).rspStatus = s.rspStatus := rfl
@[simp] theorem State.storeByte_rspData0 : (s.storeByte a v).rspData0 = s.rspData0 := rfl
@[simp] theorem State.storeByte_rspData1 : (s.storeByte a v).rspData1 = s.rspData1 := rfl
@[simp] theorem State.storeByte_capBytes : (s.storeByte a v).capBytes = s.capBytes := rfl
@[simp] theorem State.storeByte_storeEpoch : (s.storeByte a v).storeEpoch = s.storeEpoch := rfl
@[simp] theorem State.storeByte_script : (s.storeByte a v).script = s.script := rfl
@[simp] theorem State.storeByte_pos : (s.storeByte a v).pos = s.pos := rfl

end

section
variable (a : Nat) (v : Word)

@[simp] theorem State.storeView_life : (s.storeView a v).life = s.life := rfl
@[simp] theorem State.storeView_cfgR : (s.storeView a v).cfgR = s.cfgR := rfl
@[simp] theorem State.storeView_cfgB : (s.storeView a v).cfgB = s.cfgB := rfl
@[simp] theorem State.storeView_fault : (s.storeView a v).fault = s.fault := rfl
@[simp] theorem State.storeView_faultCause : (s.storeView a v).faultCause = s.faultCause := rfl
@[simp] theorem State.storeView_rspStatus : (s.storeView a v).rspStatus = s.rspStatus := rfl
@[simp] theorem State.storeView_rspData0 : (s.storeView a v).rspData0 = s.rspData0 := rfl
@[simp] theorem State.storeView_rspData1 : (s.storeView a v).rspData1 = s.rspData1 := rfl
@[simp] theorem State.storeView_capBytes : (s.storeView a v).capBytes = s.capBytes := rfl
@[simp] theorem State.storeView_storeEpoch : (s.storeView a v).storeEpoch = s.storeEpoch := rfl
@[simp] theorem State.storeView_script : (s.storeView a v).script = s.script := rfl
@[simp] theorem State.storeView_pos : (s.storeView a v).pos = s.pos := rfl

end

section
variable (w : Width) (i : Nat) (v : Byte)

@[simp] theorem State.setReg_life : (s.setReg w i v).life = s.life := by cases w <;> rfl
@[simp] theorem State.setReg_cfgR : (s.setReg w i v).cfgR = s.cfgR := by cases w <;> rfl
@[simp] theorem State.setReg_cfgB : (s.setReg w i v).cfgB = s.cfgB := by cases w <;> rfl
@[simp] theorem State.setReg_fault : (s.setReg w i v).fault = s.fault := by cases w <;> rfl
@[simp] theorem State.setReg_faultCause : (s.setReg w i v).faultCause = s.faultCause := by cases w <;> rfl
@[simp] theorem State.setReg_rspStatus : (s.setReg w i v).rspStatus = s.rspStatus := by cases w <;> rfl
@[simp] theorem State.setReg_rspData0 : (s.setReg w i v).rspData0 = s.rspData0 := by cases w <;> rfl
@[simp] theorem State.setReg_rspData1 : (s.setReg w i v).rspData1 = s.rspData1 := by cases w <;> rfl
@[simp] theorem State.setReg_capBytes : (s.setReg w i v).capBytes = s.capBytes := by cases w <;> rfl
@[simp] theorem State.setReg_storeEpoch : (s.setReg w i v).storeEpoch = s.storeEpoch := by cases w <;> rfl
@[simp] theorem State.setReg_script : (s.setReg w i v).script = s.script := by cases w <;> rfl
@[simp] theorem State.setReg_pos : (s.setReg w i v).pos = s.pos := by cases w <;> rfl

end

section
variable (w : Width) (q k : Nat)

@[simp] theorem State.updateReg_life : (s.updateReg w q k).life = s.life := by unfold State.updateReg; split <;> simp
@[simp] theorem State.updateReg_cfgR : (s.updateReg w q k).cfgR = s.cfgR := by unfold State.updateReg; split <;> simp
@[simp] theorem State.updateReg_cfgB : (s.updateReg w q k).cfgB = s.cfgB := by unfold State.updateReg; split <;> simp
@[simp] theorem State.updateReg_fault : (s.updateReg w q k).fault = s.fault := by unfold State.updateReg; split <;> simp
@[simp] theorem State.updateReg_faultCause : (s.updateReg w q k).faultCause = s.faultCause := by unfold State.updateReg; split <;> simp
@[simp] theorem State.updateReg_rspStatus : (s.updateReg w q k).rspStatus = s.rspStatus := by unfold State.updateReg; split <;> simp
@[simp] theorem State.updateReg_rspData0 : (s.updateReg w q k).rspData0 = s.rspData0 := by unfold State.updateReg; split <;> simp
@[simp] theorem State.updateReg_rspData1 : (s.updateReg w q k).rspData1 = s.rspData1 := by unfold State.updateReg; split <;> simp
@[simp] theorem State.updateReg_capBytes : (s.updateReg w q k).capBytes = s.capBytes := by unfold State.updateReg; split <;> simp
@[simp] theorem State.updateReg_storeEpoch : (s.updateReg w q k).storeEpoch = s.storeEpoch := by unfold State.updateReg; split <;> simp
@[simp] theorem State.updateReg_script : (s.updateReg w q k).script = s.script := by unfold State.updateReg; split <;> simp
@[simp] theorem State.updateReg_pos : (s.updateReg w q k).pos = s.pos := by unfold State.updateReg; split <;> simp

end

section
variable (rw be : Byte)

@[simp] theorem State.initialise_life : (s.initialise rw be).life = .active := rfl
@[simp] theorem State.initialise_cfgR : (s.initialise rw be).cfgR = rw := rfl
@[simp] theorem State.initialise_cfgB : (s.initialise rw be).cfgB = be := rfl
@[simp] theorem State.initialise_fault : (s.initialise rw be).fault = s.fault := rfl
@[simp] theorem State.initialise_faultCause : (s.initialise rw be).faultCause = s.faultCause := rfl
@[simp] theorem State.initialise_store : (s.initialise rw be).store = Store.zeroFill (initImageLen rw be) s.store := rfl
@[simp] theorem State.initialise_rspStatus : (s.initialise rw be).rspStatus = s.rspStatus := rfl
@[simp] theorem State.initialise_rspData0 : (s.initialise rw be).rspData0 = s.rspData0 := rfl
@[simp] theorem State.initialise_rspData1 : (s.initialise rw be).rspData1 = s.rspData1 := rfl
@[simp] theorem State.initialise_capBytes : (s.initialise rw be).capBytes = s.capBytes := rfl
@[simp] theorem State.initialise_storeEpoch : (s.initialise rw be).storeEpoch = s.storeEpoch := rfl
@[simp] theorem State.initialise_script : (s.initialise rw be).script = s.script := rfl
@[simp] theorem State.initialise_pos : (s.initialise rw be).pos = s.pos := rfl

end

@[simp] theorem State.takeReset_life : (s.takeReset).life = .uninit := rfl
@[simp] theorem State.takeReset_cfgR : (s.takeReset).cfgR = 0 := rfl
@[simp] theorem State.takeReset_cfgB : (s.takeReset).cfgB = 0 := rfl
@[simp] theorem State.takeReset_fault : (s.takeReset).fault = false := rfl
@[simp] theorem State.takeReset_faultCause : (s.takeReset).faultCause = .none := rfl
@[simp] theorem State.takeReset_store : (s.takeReset).store = [] := rfl
@[simp] theorem State.takeReset_rspStatus : (s.takeReset).rspStatus = 0 := rfl
@[simp] theorem State.takeReset_rspData0 : (s.takeReset).rspData0 = 0 := rfl
@[simp] theorem State.takeReset_rspData1 : (s.takeReset).rspData1 = 0 := rfl
@[simp] theorem State.takeReset_capBytes : (s.takeReset).capBytes = s.capBytes := rfl
@[simp] theorem State.takeReset_storeEpoch : (s.takeReset).storeEpoch = s.storeEpoch + 1 := rfl
@[simp] theorem State.takeReset_script : (s.takeReset).script = s.script := rfl
@[simp] theorem State.takeReset_pos : (s.takeReset).pos = s.pos := rfl
@[simp] theorem State.advance_life : (s.advance).life = s.life := rfl
@[simp] theorem State.advance_cfgR : (s.advance).cfgR = s.cfgR := rfl
@[simp] theorem State.advance_cfgB : (s.advance).cfgB = s.cfgB := rfl
@[simp] theorem State.advance_fault : (s.advance).fault = s.fault := rfl
@[simp] theorem State.advance_faultCause : (s.advance).faultCause = s.faultCause := rfl
@[simp] theorem State.advance_store : (s.advance).store = s.store := rfl
@[simp] theorem State.advance_rspStatus : (s.advance).rspStatus = s.rspStatus := rfl
@[simp] theorem State.advance_rspData0 : (s.advance).rspData0 = s.rspData0 := rfl
@[simp] theorem State.advance_rspData1 : (s.advance).rspData1 = s.rspData1 := rfl
@[simp] theorem State.advance_capBytes : (s.advance).capBytes = s.capBytes := rfl
@[simp] theorem State.advance_storeEpoch : (s.advance).storeEpoch = s.storeEpoch := rfl
@[simp] theorem State.advance_script : (s.advance).script = s.script := rfl
@[simp] theorem State.advance_pos : (s.advance).pos = s.pos + 1 := rfl
end Sys2Proof.Machine
end

