-- ==== Sys2Proof/Laws/Store.lean ====
section
/-! SUPPORT. The laws of STORE: read after write, the canonical form, and that equal stores are equal
data (20_memory.md R55 to R60). -/

namespace Sys2Proof.Machine

/-- A byte read after a byte is written: the value written there, the old byte elsewhere. -/
@[simp] theorem Store.read?_write (st : List Host.Cell) (a b : Nat) (v : Byte) :
    Store.read? (Store.write st a v) b = if b = a then some v else Store.read? st b := by
  induction st with
  | nil => simp [Store.write, Store.read?, eq_comm]
  | cons x rest ih =>
    simp only [Store.write]
    split
    · simp only [Store.read?, ih]
      split <;> split <;> first | rfl | omega
    · split
      · simp only [Store.read?]
        split <;> split <;> first | rfl | omega | simp_all
      · simp only [Store.read?, eq_comm (a := b)]

theorem Store.mem_write {st : List Host.Cell} {a : Nat} {v : Byte} {x : Host.Cell}
    (h : x ∈ Store.write st a v) : x = (a, v) ∨ x ∈ st := by
  induction st with
  | nil => simpa [Store.write] using h
  | cons y rest ih =>
    simp only [Store.write] at h
    split at h
    · rcases List.mem_cons.1 h with rfl | h
      · exact .inr List.mem_cons_self
      · exact (ih h).imp_right (List.mem_cons_of_mem _)
    · split at h
      · exact (List.mem_cons.1 h).imp_right (List.mem_cons_of_mem _)
      · exact List.mem_cons.1 h

/-- The canonical form, as Mathlib spells it. -/
theorem Store.wf_iff (st : List Host.Cell) :
    Store.wf st = true ↔ st.Pairwise (fun x y => x.1 < y.1) := by
  induction st with
  | nil => simp [Store.wf]
  | cons x rest ih =>
    cases rest with
    | nil => simp [Store.wf]
    | cons y rest =>
      simp only [Store.wf, Bool.and_eq_true, decide_eq_true_eq, ih, List.pairwise_cons,
        List.mem_cons]
      constructor
      · rintro ⟨hxy, hy, hr⟩
        refine ⟨?_, hy, hr⟩
        rintro z (rfl | hz)
        · exact hxy
        · exact hxy.trans (hy z hz)
      · rintro ⟨hx, hy, hr⟩
        exact ⟨hx y (.inl rfl), hy, hr⟩

/-- A write keeps the canonical form. -/
theorem Store.write_wf {st : List Host.Cell} (a : Nat) (v : Byte) (h : Store.wf st = true) :
    Store.wf (Store.write st a v) = true := by
  rw [Store.wf_iff] at h ⊢
  induction st with
  | nil => simp [Store.write]
  | cons x rest ih =>
    rw [List.pairwise_cons] at h
    simp only [Store.write]
    split
    · rename_i hlt
      refine List.pairwise_cons.2 ⟨fun y hy => ?_, ih h.2⟩
      rcases Store.mem_write hy with rfl | hy
      · exact hlt
      · exact h.1 y hy
    · split
      · rename_i heq
        exact List.pairwise_cons.2 ⟨fun y hy => heq ▸ h.1 y hy, h.2⟩
      · rename_i hlt hne
        refine List.pairwise_cons.2 ⟨fun y hy => ?_, List.pairwise_cons.2 h⟩
        have hax : a < x.1 := by omega
        rcases List.mem_cons.1 hy with rfl | hy
        · exact hax
        · exact hax.trans (h.1 y hy)

theorem Store.read?_append (xs ys : List Host.Cell) (a : Nat) :
    Store.read? (xs ++ ys) a = (Store.read? xs a).or (Store.read? ys a) := by
  induction xs with
  | nil => simp [Store.read?]
  | cons x rest ih =>
    simp only [List.cons_append, Store.read?, ih]
    split <;> simp

theorem Store.read?_zeros (n a : Nat) :
    Store.read? ((List.range n).map (fun a => (a, 0))) a = if a < n then some 0 else none := by
  induction n with
  | zero => simp [Store.read?]
  | succ n ih =>
    rw [List.range_succ, List.map_append, Store.read?_append, ih]
    simp only [List.map_cons, List.map_nil, Store.read?]
    split <;> split <;> simp <;> omega

theorem Store.read?_filter (st : List Host.Cell) (n a : Nat) :
    Store.read? (st.filter (fun x => decide (n ≤ x.1))) a =
      if a < n then none else Store.read? st a := by
  induction st with
  | nil => simp [Store.read?]
  | cons x rest ih =>
    rw [List.filter_cons]
    split
    · simp only [Store.read?, ih]
      simp_all
      split <;> split <;> first | rfl | omega
    · simp only [Store.read?, ih]
      simp_all
      split <;> first | rfl | (rw [if_neg (by omega)])

/-- A byte read after the zero-fill: 0 below n, the old byte from n on. -/
@[simp] theorem Store.read?_zeroFill (st : List Host.Cell) (n a : Nat) :
    Store.read? (Store.zeroFill n st) a = if a < n then some 0 else Store.read? st a := by
  rw [Store.zeroFill, Store.read?_append, Store.read?_zeros, Store.read?_filter]
  split <;> simp

theorem Store.mem_zeroFill {st : List Host.Cell} {n : Nat} {x : Host.Cell}
    (h : x ∈ Store.zeroFill n st) : x.1 < n ∨ x ∈ st := by
  simp only [Store.zeroFill, List.mem_append, List.mem_map, List.mem_range, List.mem_filter] at h
  rcases h with ⟨a, ha, rfl⟩ | h
  · exact .inl ha
  · exact .inr h.1

/-- The zero-fill keeps the canonical form. -/
theorem Store.zeroFill_wf {st : List Host.Cell} (n : Nat) (h : Store.wf st = true) :
    Store.wf (Store.zeroFill n st) = true := by
  rw [Store.wf_iff] at h ⊢
  refine List.pairwise_append.2 ⟨?_, h.filter _, ?_⟩
  · rw [List.pairwise_map]
    exact List.pairwise_lt_range
  · intro x hx y hy
    simp only [List.mem_map, List.mem_range, List.mem_filter, decide_eq_true_eq] at hx hy
    obtain ⟨a, ha, rfl⟩ := hx
    exact lt_of_lt_of_le ha hy.2

theorem Store.read?_eq_none {st : List Host.Cell} {a : Nat} (h : ∀ x ∈ st, a < x.1) :
    Store.read? st a = none := by
  induction st with
  | nil => rfl
  | cons x rest ih =>
    have hx := h x List.mem_cons_self
    rw [Store.read?, if_neg (by omega)]
    exact ih fun y hy => h y (List.mem_cons_of_mem _ hy)

/-- Two canonical stores that hold the same bytes are the same data. -/
theorem Store.ext {st su : List Host.Cell} (ht : Store.wf st = true) (hu : Store.wf su = true)
    (h : ∀ a, Store.read? st a = Store.read? su a) : st = su := by
  rw [Store.wf_iff] at ht hu
  induction st generalizing su with
  | nil =>
    cases su with
    | nil => rfl
    | cons y su => simpa [Store.read?] using h y.1
  | cons x st ih =>
    cases su with
    | nil => simpa [Store.read?] using h x.1
    | cons y su =>
      rw [List.pairwise_cons] at ht hu
      have hnx := Store.read?_eq_none ht.1
      have hny := Store.read?_eq_none hu.1
      have hxy : x = y := by
        rcases lt_trichotomy x.1 y.1 with hlt | heq | hgt
        · have := h x.1
          rw [Store.read?, if_pos rfl, Store.read?, if_neg (by omega),
            Store.read?_eq_none fun z hz => hlt.trans (hu.1 z hz)] at this
          simp at this
        · have := h x.1
          rw [Store.read?, if_pos rfl, Store.read?, if_pos heq.symm] at this
          exact Prod.ext heq (by simpa using this)
        · have := h y.1
          rw [Store.read?, if_neg (by omega), Store.read?, if_pos rfl,
            Store.read?_eq_none fun z hz => hgt.trans (ht.1 z hz)] at this
          simp at this
      subst hxy
      refine congrArg _ (ih ht.2 hu.2 fun a => ?_)
      have := h a
      simp only [Store.read?] at this
      by_cases ha : x.1 = a
      · subst ha
        rw [hnx, hny]
      · simpa [ha] using this

variable (s : State)

@[simp] theorem State.loadByte_storeByte (a b : Nat) (v : Byte) :
    (s.storeByte a v).loadByte b = if b = a then v else s.loadByte b := by
  simp only [State.loadByte, State.storeByte_store, State.storeByte_storeEpoch, Store.read?_write]
  split <;> rfl

@[simp] theorem State.loadByte_respond (st : Status) (d0 d1 : DWord) :
    (s.respond st d0 d1).loadByte = s.loadByte := rfl

@[simp] theorem State.loadByte_raiseFault (c : FaultCause) :
    (s.raiseFault c).loadByte = s.loadByte := rfl

@[simp] theorem State.loadByte_respondFaulted : s.respondFaulted.loadByte = s.loadByte := rfl

@[simp] theorem State.loadByte_advance : s.advance.loadByte = s.loadByte := rfl

@[simp] theorem State.loadByte_initialise (rw be : Byte) (a : Nat) :
    (s.initialise rw be).loadByte a = if a < initImageLen rw be then 0 else s.loadByte a := by
  have hep : (s.initialise rw be).storeEpoch = s.storeEpoch := rfl
  simp only [State.loadByte, State.initialise_store, Store.read?_zeroFill, hep]
  split <;> rfl

/-- A 4-byte write, byte by byte (00_scope.md R10). -/
theorem State.loadByte_storeView (k b : Nat) (v : Word) :
    (s.storeView k v).loadByte b =
      if k ≤ b ∧ b < k + 4 then v.extractLsb' (8 * (b - k)) 8 else s.loadByte b := by
  simp only [State.storeView, State.loadByte_storeByte]
  by_cases h : k ≤ b ∧ b < k + 4
  · rw [if_pos h]
    obtain ⟨j, rfl⟩ := Nat.exists_eq_add_of_le h.1
    have hj : j = 0 ∨ j = 1 ∨ j = 2 ∨ j = 3 := by omega
    rcases hj with rfl | rfl | rfl | rfl <;> simp
  · rw [if_neg h, if_neg (by omega), if_neg (by omega), if_neg (by omega), if_neg (by omega)]

/-- A byte of STORE is one update of the store. -/
theorem State.storeView_store (k : Nat) (v : Word) :
    (s.storeView k v).store =
      Store.write (Store.write (Store.write (Store.write s.store k (v.extractLsb' 0 8)) (k + 1)
        (v.extractLsb' 8 8)) (k + 2) (v.extractLsb' 16 8)) (k + 3) (v.extractLsb' 24 8) := rfl

/-- A property of stores that every byte write at an offset below n keeps is kept by a register write
whose bytes lie below n. -/
theorem State.setReg_store_induction {P : List Host.Cell → Prop} (n : Nat)
    (hw : ∀ st a v, a < n → P st → P (Store.write st a v)) (w : Width) (i : Nat) (v : Byte)
    (hi : w.byteIndex i + w.accessBytes ≤ n) (h : P s.store) : P (s.setReg w i v).store := by
  cases w <;> simp only [Width.accessBytes, Width.byteIndex] at hi
  · exact hw _ _ _ (by simpa [Width.byteIndex] using hi) h
  · simp only [State.setReg, State.storeView_store, Width.byteIndex]
    exact hw _ _ _ (by omega) (hw _ _ _ (by omega) (hw _ _ _ (by omega) (hw _ _ _ (by omega) h)))
  · exact hw _ _ _ (by simpa [Width.byteIndex] using hi) h

/-- A register write keeps the canonical form. -/
theorem State.setReg_wf (w : Width) (i : Nat) (v : Byte) (h : Store.wf s.store = true) :
    Store.wf (s.setReg w i v).store = true :=
  s.setReg_store_induction (P := fun st => Store.wf st = true) _
    (fun _ _ _ _ h => Store.write_wf _ _ h) w i v le_rfl h

end Sys2Proof.Machine
end

