-- ==== Sys2Proof/Laws/RegisterFile.lean ====
section
/-! SUPPORT. The laws of the packed register file: register i is the bits r*i to r*i + r - 1 of STORE, and
a register write changes exactly those (40_register_file.md R101 to R111). -/

namespace Sys2Proof.Machine

variable (s : State)

theorem State.loadView_bit (k p : Nat) (hp : p < 32) :
    (s.loadView k).getLsbD p = (s.loadByte (k + p / 8)).getLsbD (p % 8) := by
  have h : p / 8 = 0 ∨ p / 8 = 1 ∨ p / 8 = 2 ∨ p / 8 = 3 := by omega
  simp only [State.loadView, BitVec.getLsbD_append]
  rcases h with h | h | h | h
  · rw [if_pos (by omega), h, show p % 8 = p by omega, Nat.add_zero]
  · rw [if_neg (by omega), if_pos (by omega), h, show p % 8 = p - 8 by omega]
  · rw [if_neg (by omega), if_neg (by omega), if_pos (by omega), h,
      show p % 8 = p - 8 - 8 by omega]
  · rw [if_neg (by omega), if_neg (by omega), if_neg (by omega), h,
      show p % 8 = p - 8 - 8 - 8 by omega]

theorem mask_bit {n : Nat} (k t : Nat) (hk : k ≤ n) :
    (BitVec.ofNat n (2 ^ k - 1)).getLsbD t = decide (t < k) := by
  rw [BitVec.getLsbD_ofNat, Nat.testBit_two_pow_sub_one]
  by_cases h : t < k
  · simp [h, h.trans_le hk]
  · simp [h]

theorem mask4_bit (t : Nat) : (0xF#8).getLsbD t = decide (t < 4) := mask_bit (n := 8) 4 t (by omega)

theorem mask6_bit (t : Nat) : (0x3F#32).getLsbD t = decide (t < 6) :=
  mask_bit (n := 32) 6 t (by omega)

/-- Bit t of register i is bit r*i + t of STORE (40_register_file.md R101 to R104). -/
theorem State.getReg_bit (w : Width) (i t : Nat) :
    (s.getReg w i).getLsbD t = (decide (t < w.bits) && s.storeBit (w.bits * i + t)) := by
  cases w <;> simp only [State.getReg, Width.byteIndex, Width.shift, Width.bits, State.storeBit]
  · simp only [BitVec.getLsbD_and, BitVec.getLsbD_ushiftRight, mask4_bit]
    by_cases h : t < 4
    · rw [show (4 * i + t) / 8 = i / 2 by omega, show (4 * i + t) % 8 = 4 * (i % 2) + t by omega]
      simp [h]
    · simp [h]
  · simp only [BitVec.getLsbD_setWidth, BitVec.getLsbD_and, BitVec.getLsbD_ushiftRight, mask6_bit]
    by_cases h : t < 6
    · rw [s.loadView_bit _ _ (by omega),
        show (6 * i + t) / 8 = 3 * (i / 4) + (6 * (i % 4) + t) / 8 by omega,
        show (6 * i + t) % 8 = (6 * (i % 4) + t) % 8 by omega]
      simp [h, show t < 8 by omega]
    · simp [h]
  · by_cases h : t < 8
    · rw [show (8 * i + t) / 8 = i by omega, show (8 * i + t) % 8 = t by omega]
      simp [h]
    · simpa [h] using BitVec.getLsbD_of_ge _ _ (by omega)

/-- A value that fits the width has no bit beyond it. -/
theorem high_bit_false {w : Width} {v : Byte} (hv : v.toNat < 2 ^ w.bits) {t : Nat}
    (ht : w.bits ≤ t) : v.getLsbD t = false :=
  Nat.testBit_lt_two_pow (hv.trans_le (Nat.pow_le_pow_right (by omega) ht))

/-- One masked bit: the field's bits come from the value, the others from the old word. -/
theorem masked_bit {n : Nat} (k sh p : Nat) (old val : BitVec n) (hk : k ≤ n) (hp : p < n)
    (hval : ∀ t, k ≤ t → val.getLsbD t = false) :
    ((old &&& ~~~(BitVec.ofNat n (2 ^ k - 1) <<< sh)) ||| (val <<< sh)).getLsbD p =
      if sh ≤ p ∧ p < sh + k then val.getLsbD (p - sh) else old.getLsbD p := by
  simp only [BitVec.getLsbD_or, BitVec.getLsbD_and, BitVec.getLsbD_not, BitVec.getLsbD_shiftLeft,
    mask_bit k _ hk]
  by_cases h1 : p < sh
  · simp [hp, h1, show ¬ sh ≤ p by omega]
  · by_cases h2 : p < sh + k
    · simp [hp, h1, h2, show p - sh < k by omega, show sh ≤ p by omega]
    · simp [hp, h1, h2, show ¬ p - sh < k by omega, hval (p - sh) (by omega)]

theorem State.setReg4_bit (i n : Nat) (v : Byte) (hv : v.toNat < 2 ^ 4) :
    (s.setReg .w4 i v).storeBit n =
      if 4 * i ≤ n ∧ n < 4 * i + 4 then v.getLsbD (n - 4 * i) else s.storeBit n := by
  have key : (s.setReg .w4 i v).storeBit n =
      (if n / 8 = i / 2 then ((s.loadByte (i / 2) &&& ~~~(0xF#8 <<< (4 * (i % 2)))) |||
        (v <<< (4 * (i % 2)))) else s.loadByte (n / 8)).getLsbD (n % 8) := by
    simp only [State.storeBit, State.setReg, Width.byteIndex, Width.shift, State.loadByte_storeByte]
  rw [key, State.storeBit]
  by_cases hb : n / 8 = i / 2
  · rw [if_pos hb, hb]
    refine (masked_bit 4 _ _ _ _ (by omega) (by omega)
      (fun t ht => high_bit_false (w := .w4) hv ht)).trans ?_
    by_cases h : 4 * i ≤ n ∧ n < 4 * i + 4
    · rw [if_pos h, if_pos (by omega), show n % 8 - 4 * (i % 2) = n - 4 * i by omega]
    · rw [if_neg h, if_neg (by omega)]
  · rw [if_neg hb, if_neg (by omega)]

theorem State.setReg6_bit (i n : Nat) (v : Byte) (hv : v.toNat < 2 ^ 6) :
    (s.setReg .w6 i v).storeBit n =
      if 6 * i ≤ n ∧ n < 6 * i + 6 then v.getLsbD (n - 6 * i) else s.storeBit n := by
  have key : (s.setReg .w6 i v).storeBit n =
      (if 3 * (i / 4) ≤ n / 8 ∧ n / 8 < 3 * (i / 4) + 4 then
        ((s.loadView (3 * (i / 4)) &&& ~~~(0x3F#32 <<< (6 * (i % 4)))) |||
          (v.setWidth 32 <<< (6 * (i % 4)))).extractLsb' (8 * (n / 8 - 3 * (i / 4))) 8
        else s.loadByte (n / 8)).getLsbD (n % 8) := by
    simp only [State.storeBit, State.setReg, Width.byteIndex, Width.shift, State.loadByte_storeView]
  rw [key, State.storeBit]
  have h8 : n % 8 < 8 := Nat.mod_lt _ (by omega)
  by_cases hb : 3 * (i / 4) ≤ n / 8 ∧ n / 8 < 3 * (i / 4) + 4
  · rw [if_pos hb, BitVec.getLsbD_extractLsb', decide_eq_true h8, Bool.true_and]
    refine (masked_bit 6 _ _ _ _ (by omega) (by omega) (fun t ht => ?_)).trans ?_
    · rw [BitVec.getLsbD_setWidth, high_bit_false (w := .w6) hv ht, Bool.and_false]
    · by_cases h : 6 * i ≤ n ∧ n < 6 * i + 6
      · rw [if_pos h, if_pos (by omega), BitVec.getLsbD_setWidth, decide_eq_true (by omega),
          Bool.true_and, show 8 * (n / 8 - 3 * (i / 4)) + n % 8 - 6 * (i % 4) = n - 6 * i by omega]
      · rw [if_neg h, if_neg (by omega), s.loadView_bit _ _ (by omega)]
        rw [show 3 * (i / 4) + (8 * (n / 8 - 3 * (i / 4)) + n % 8) / 8 = n / 8 by omega,
          show (8 * (n / 8 - 3 * (i / 4)) + n % 8) % 8 = n % 8 by omega]
  · rw [if_neg hb, if_neg (by omega)]

theorem State.setReg8_bit (i n : Nat) (v : Byte) :
    (s.setReg .w8 i v).storeBit n =
      if 8 * i ≤ n ∧ n < 8 * i + 8 then v.getLsbD (n - 8 * i) else s.storeBit n := by
  have key : (s.setReg .w8 i v).storeBit n =
      (if n / 8 = i then v else s.loadByte (n / 8)).getLsbD (n % 8) := by
    simp only [State.storeBit, State.setReg, Width.byteIndex, State.loadByte_storeByte]
  rw [key, State.storeBit]
  by_cases hb : n / 8 = i
  · rw [if_pos hb, if_pos (by omega), show n - 8 * i = n % 8 by omega]
  · rw [if_neg hb, if_neg (by omega)]

/-- A register write changes the bits r*i to r*i + r - 1 of STORE to the value's, and no other bit
(40_register_file.md R108, R110). -/
theorem State.setReg_bit (w : Width) (i n : Nat) (v : Byte) (hv : v.toNat < 2 ^ w.bits) :
    (s.setReg w i v).storeBit n =
      if w.bits * i ≤ n ∧ n < w.bits * i + w.bits then v.getLsbD (n - w.bits * i)
      else s.storeBit n := by
  cases w
  · exact s.setReg4_bit i n v hv
  · exact s.setReg6_bit i n v hv
  · exact s.setReg8_bit i n v

/-- A register read fits the width (10_state.md R29). -/
theorem State.getReg_lt (w : Width) (i : Nat) : (s.getReg w i).toNat < 2 ^ w.bits := by
  refine Nat.lt_pow_two_of_testBit _ fun t ht => ?_
  have := s.getReg_bit w i t
  rw [BitVec.getLsbD, decide_eq_false (by omega), Bool.false_and] at this
  exact this

/-- A register read is at most cap(r) (10_state.md R29). -/
theorem State.getReg_le_cap (w : Width) (i : Nat) : (s.getReg w i).toNat ≤ w.cap :=
  Nat.le_sub_one_of_lt (s.getReg_lt w i)

/-- The register read sees STORE only through the bits of its register. -/
theorem State.getReg_congr {s t : State} (w : Width) (i : Nat)
    (h : ∀ n, w.bits * i ≤ n → n < w.bits * i + w.bits → s.storeBit n = t.storeBit n) :
    s.getReg w i = t.getReg w i := by
  refine BitVec.eq_of_getLsbD_eq fun p _ => ?_
  rw [s.getReg_bit, t.getReg_bit]
  by_cases hp : p < w.bits
  · rw [h _ (by omega) (by omega)]
  · simp [hp]

/-- After set(i, v), get(i) = v (40_register_file.md R111). -/
theorem State.getReg_setReg_same (w : Width) (i : Nat) (v : Byte) (hv : v.toNat < 2 ^ w.bits) :
    (s.setReg w i v).getReg w i = v := by
  refine BitVec.eq_of_getLsbD_eq fun p _ => ?_
  rw [State.getReg_bit]
  by_cases hp : p < w.bits
  · rw [State.setReg_bit _ _ _ _ _ hv, if_pos (by omega), decide_eq_true hp, Bool.true_and,
      Nat.add_sub_cancel_left]
  · simp [hp, high_bit_false hv (not_lt.1 hp)]

/-- After set(i, v), get(j) is unchanged for j other than i (40_register_file.md R111). -/
theorem State.getReg_setReg_other (w : Width) {i j : Nat} (v : Byte) (hv : v.toNat < 2 ^ w.bits)
    (hij : j ≠ i) : (s.setReg w i v).getReg w j = s.getReg w j := by
  refine State.getReg_congr w j fun n h1 h2 => ?_
  rw [State.setReg_bit _ _ _ _ _ hv, if_neg]
  rintro ⟨h3, h4⟩
  rcases Nat.lt_or_gt_of_ne hij with h | h
  · have := Nat.mul_le_mul_left w.bits (Nat.succ_le_of_lt h)
    rw [Nat.mul_succ] at this
    omega
  · have := Nat.mul_le_mul_left w.bits (Nat.succ_le_of_lt h)
    rw [Nat.mul_succ] at this
    omega

/-- A byte none of whose bits is the register's is unchanged by the register write. -/
theorem State.loadByte_setReg_other (w : Width) (i a : Nat) (v : Byte)
    (h : a < w.byteIndex i ∨ w.byteIndex i + w.accessBytes ≤ a) :
    (s.setReg w i v).loadByte a = s.loadByte a := by
  cases w <;> simp only [Width.accessBytes] at h
  · simp only [State.setReg, State.loadByte_storeByte]
    exact if_neg (by omega)
  · simp only [State.setReg, State.loadByte_storeView]
    exact if_neg (by omega)
  · simp only [State.setReg, State.loadByte_storeByte]
    exact if_neg (by omega)

/-- Every register access of a legal index stays inside the image (20_memory.md R52). -/
theorem Width.access_inside (w : Width) (b i : Nat) (hb : w.bMin ≤ b) (hi : i < 2 ^ b) :
    w.byteIndex i + w.accessBytes ≤ w.imageLen b := by
  cases w <;> simp only [Width.bMin, Width.byteIndex, Width.accessBytes, Width.imageLen] at *
  · obtain ⟨k, rfl⟩ := Nat.exists_eq_add_of_le hb
    rw [Nat.pow_add, Nat.pow_one] at *
    omega
  · obtain ⟨k, rfl⟩ := Nat.exists_eq_add_of_le hb
    rw [Nat.pow_add, show 2 ^ 2 = 4 from rfl] at *
    omega
  · omega

end Sys2Proof.Machine
end

