-- ==== Sys2Proof/Laws/Command.lean ====
section
/-! SUPPORT. What the shared operations and the commands can do, said once: the dispatch order, the
configuration, and the cases of a next state (30_encoding.md R80, R81). -/

namespace Sys2Proof.Machine

open Sys2Proof.Safety

variable {s t : State}

theorem unlessFaulted_true {rest : Answer} (h : s.fault = true) :
    unlessFaulted s rest = .next s.respondFaulted := if_pos h

theorem unlessFaulted_false {rest : Answer} (h : s.fault = false) : unlessFaulted s rest = rest :=
  if_neg (by simp [h])

/-- If a request is answered, the fault mask answered it or the rest did. -/
theorem unlessFaulted_cases {rest : Answer} (h : unlessFaulted s rest = .next t) :
    (s.fault = true ∧ t = s.respondFaulted) ∨ (s.fault = false ∧ rest = .next t) := by
  cases hf : s.fault with
  | true => exact .inl ⟨rfl, by rw [unlessFaulted_true hf] at h; cases h; rfl⟩
  | false => exact .inr ⟨rfl, by rwa [unlessFaulted_false hf] at h⟩

theorem lifecycleGate_uninit {u a : Answer} {c : FaultCause} (h : s.life = .uninit) :
    lifecycleGate s u a c = u := by simp [lifecycleGate, h]

theorem lifecycleGate_active {u a : Answer} {c : FaultCause} (h : s.life = .active) :
    lifecycleGate s u a c = a := by simp [lifecycleGate, h]

theorem lifecycleGate_freed {u a : Answer} {c : FaultCause} (h : s.life = .freed) :
    lifecycleGate s u a c = .next (s.raiseFault c) := by simp [lifecycleGate, h]

/-- If the gate lets a next state through, it is UNINIT's answer, ACTIVE's, or FREED's fault. -/
theorem lifecycleGate_cases {u a : Answer} {c : FaultCause} (h : lifecycleGate s u a c = .next t) :
    (s.life = .uninit ∧ u = .next t) ∨ (s.life = .active ∧ a = .next t) ∨
      (s.life = .freed ∧ t = s.raiseFault c) := by
  cases hl : s.life with
  | uninit => exact .inl ⟨rfl, by rwa [lifecycleGate_uninit hl] at h⟩
  | active => exact .inr (.inl ⟨rfl, by rwa [lifecycleGate_active hl] at h⟩)
  | freed => exact .inr (.inr ⟨rfl, by rw [lifecycleGate_freed hl] at h; cases h; rfl⟩)

theorem withConfig_some {run : ActiveConfig → Answer} {c : ActiveConfig} (h : s.config? = some c) :
    withConfig s run = run c := by simp [withConfig, h]

theorem withConfig_cases {run : ActiveConfig → Answer} (h : withConfig s run = .next t) :
    ∃ c, s.config? = some c ∧ run c = .next t := by
  unfold withConfig at h
  split at h
  · exact ⟨_, ‹_›, h⟩
  · cases h

/-- A command whose state is ready runs its own rule at the configuration (30_encoding.md R80, R81). -/
theorem run_of_ready {c : ActiveConfig} (h : Ready s c) (u : Answer) (run : ActiveConfig → Answer)
    (cause : FaultCause) :
    unlessFaulted s (lifecycleGate s u (withConfig s run) cause) = run c := by
  rw [unlessFaulted_false h.1, lifecycleGate_active h.2.1, withConfig_some h.2.2]

/-- The configuration a state holds, spelled out (10_state.md R23). -/
theorem State.config?_eq_some {c : ActiveConfig} :
    s.config? = some c ↔
      Width.ofField s.cfgR = some c.width ∧ c.exponent = s.cfgB.toNat ∧
        c.width.bMin ≤ c.exponent ∧ c.exponent < 64 ∧ c.imageLen ≤ s.capBytes.toNat := by
  obtain ⟨w, b⟩ := c
  unfold State.config?
  cases hw : Width.ofField s.cfgR with
  | none => simp
  | some w' =>
    simp only [ActiveConfig.imageLen]
    split
    · rename_i h
      constructor
      · intro hc
        cases hc
        exact ⟨rfl, rfl, h⟩
      · rintro ⟨hw', rfl, -⟩
        cases hw'
        rfl
    · rename_i h
      constructor
      · intro hc
        cases hc
      · rintro ⟨hw', rfl, h'⟩
        cases hw'
        exact absurd h' h

/-- The configuration depends only on CFG_R, CFG_B and CAP_BYTES. -/
theorem State.config?_congr (hr : t.cfgR = s.cfgR) (hb : t.cfgB = s.cfgB)
    (hc : t.capBytes = s.capBytes) : t.config? = s.config? := by
  simp only [State.config?, hr, hb, hc]

/-- The image length of a held configuration is L(CFG_R, CFG_B). -/
theorem State.initImageLen_eq {c : ActiveConfig} (h : s.config? = some c) :
    initImageLen s.cfgR s.cfgB = c.imageLen := by
  obtain ⟨hw, hb, -⟩ := State.config?_eq_some.1 h
  simp [initImageLen, hw, ActiveConfig.imageLen, hb]

theorem Width.ofField_eq_some {rw : Byte} {w : Width} (h : Width.ofField rw = some w) :
    rw = BitVec.ofNat 8 w.bits := by
  unfold Width.ofField at h
  split at h
  · cases h; assumption
  · split at h
    · cases h; assumption
    · split at h
      · cases h; assumption
      · cases h

/-- A passed validation, spelled out (43_counter_control.md R201). -/
theorem validate_ok {rw be : Byte} {tv hv : Bool} {cap : Nat} :
    validate rw be tv hv cap = .ok ↔
      ∃ w, Width.ofField rw = some w ∧ tv = true ∧ hv = true ∧ w.bMin ≤ be.toNat ∧
        be.toNat < 64 ∧ w.imageLen be.toNat ≤ cap := by
  cases hw : Width.ofField rw with
  | none => cases tv <;> simp [validate, hw]
  | some w =>
    simp only [validate, hw, Config.idxBytes]
    cases tv <;> cases hv <;> simp
    · split <;> simp
    · split
      · simp; omega
      · split <;> simp <;> omega

/-- The next state of INIT after the fault mask: a plain status, or success. -/
theorem init_cases {rw be : Byte} {tv hv : Bool} (h : execInit rw be tv hv s = .next t) :
    (s.fault = true ∧ t = s.respondFaulted) ∨
    (s.fault = false ∧ validate rw be tv hv s.capBytes.toNat ≠ .ok ∧
      t = s.respond (validate rw be tv hv s.capBytes.toNat) 0 0) ∨
    (s.fault = false ∧ validate rw be tv hv s.capBytes.toNat = .ok ∧
      t = (s.initialise rw be).respond .ok 0 0) := by
  rcases unlessFaulted_cases h with h | ⟨hf, h⟩
  · exact .inl h
  · split at h
    · rename_i hv'
      cases h
      exact .inr (.inr ⟨hf, hv', rfl⟩)
    · rename_i hv'
      cases h
      exact .inr (.inl ⟨hf, hv', rfl⟩)

/-- INIT's validation gives one of the statuses 0 to 5 (43_counter_control.md R200). -/
theorem validate_code (rw be : Byte) (tv hv : Bool) (cap : Nat) :
    (validate rw be tv hv cap).code.toNat ≤ 5 := by
  unfold validate
  split
  · decide
  · split
    · decide
    · split
      · decide
      · split
        · decide
        · split <;> decide

/-- Everything a command can do when it answers: the fault mask; a response alone; a fault entry; INIT's
success; ADD's update; FREE's release. -/
theorem exec_cases {i : Instr} (h : exec i s = .next t) :
    (s.fault = true ∧ t = s.respondFaulted) ∨
    (s.fault = false ∧ ∃ st d0 d1, st ≠ .fault ∧ t = s.respond st d0 d1) ∨
    (s.fault = false ∧ ∃ c, c ≠ .none ∧ t = s.raiseFault c) ∨
    (s.fault = false ∧ ∃ rw be tv hv, i = .init rw be tv hv ∧
      validate rw be tv hv s.capBytes.toNat = .ok ∧ t = (s.initialise rw be).respond .ok 0 0) ∨
    (∃ hash c, i = .add hash ∧ Ready s c ∧
      t = (s.updateReg c.width (bucket c hash) (rank c.width hash)).respond .ok 0 0) ∨
    (s.fault = false ∧ i = .free ∧ s.life = .active ∧
      t = { s with life := .freed }.respond .ok 0 0) := by
  have quiet : ∀ {st : Status} {d0 d1 : DWord}, st ≠ .fault →
      (Host.Outcome.next (s.respond st d0 d1) : Answer) = .next t →
      ∃ st d0 d1, st ≠ Status.fault ∧ t = s.respond st d0 d1 := by
    rintro st d0 d1 hst h
    cases h
    exact ⟨st, d0, d1, hst, rfl⟩
  cases i with
  | init rw be tv hv =>
    rcases init_cases h with h | ⟨hf, hv', rfl⟩ | ⟨hf, hv', rfl⟩
    · exact .inl h
    · refine .inr (.inl ⟨hf, _, _, _, fun hst => ?_, rfl⟩)
      have := validate_code rw be tv hv s.capBytes.toNat
      rw [hst] at this
      exact absurd this (by decide)
    · exact .inr (.inr (.inr (.inl ⟨hf, _, _, _, _, rfl, hv', rfl⟩)))
  | add hash =>
    rcases unlessFaulted_cases h with h | ⟨hf, h⟩
    · exact .inl h
    · rcases lifecycleGate_cases h with ⟨-, h⟩ | ⟨hl, h⟩ | ⟨-, rfl⟩
      · exact .inr (.inl ⟨hf, quiet (by decide) h⟩)
      · obtain ⟨c, hc, h⟩ := withConfig_cases h
        cases h
        exact .inr (.inr (.inr (.inr (.inl ⟨hash, c, rfl, ⟨hf, hl, hc⟩, rfl⟩))))
      · exact .inr (.inr (.inl ⟨hf, _, by decide, rfl⟩))
  | count =>
    rcases unlessFaulted_cases h with h | ⟨hf, h⟩
    · exact .inl h
    · rcases lifecycleGate_cases h with ⟨-, h⟩ | ⟨hl, h⟩ | ⟨-, rfl⟩
      · exact .inr (.inl ⟨hf, quiet (by decide) h⟩)
      · obtain ⟨c, hc, h⟩ := withConfig_cases h
        exact .inr (.inl ⟨hf, quiet (by decide) h⟩)
      · exact .inr (.inr (.inl ⟨hf, _, by decide, rfl⟩))
  | free =>
    rcases unlessFaulted_cases h with h | ⟨hf, h⟩
    · exact .inl h
    · rcases lifecycleGate_cases h with ⟨-, h⟩ | ⟨hl, h⟩ | ⟨-, rfl⟩
      · exact .inr (.inl ⟨hf, quiet (by decide) h⟩)
      · cases h
        exact .inr (.inr (.inr (.inr (.inr ⟨hf, rfl, hl, rfl⟩))))
      · exact .inr (.inr (.inl ⟨hf, _, by decide, rfl⟩))
  | rget index =>
    rcases unlessFaulted_cases h with h | ⟨hf, h⟩
    · exact .inl h
    · rcases lifecycleGate_cases h with ⟨-, h⟩ | ⟨hl, h⟩ | ⟨-, rfl⟩
      · exact .inr (.inl ⟨hf, quiet (by decide) h⟩)
      · obtain ⟨c, hc, h⟩ := withConfig_cases h
        unfold rgetActive at h
        split at h
        · cases h
          exact .inr (.inr (.inl ⟨hf, _, by decide, rfl⟩))
        · exact .inr (.inl ⟨hf, quiet (by decide) h⟩)
      · exact .inr (.inr (.inl ⟨hf, _, by decide, rfl⟩))
  | rdbyte offset =>
    rcases unlessFaulted_cases h with h | ⟨hf, h⟩
    · exact .inl h
    · rcases lifecycleGate_cases h with ⟨-, h⟩ | ⟨hl, h⟩ | ⟨-, rfl⟩
      · exact .inr (.inl ⟨hf, quiet (by decide) h⟩)
      · obtain ⟨c, hc, h⟩ := withConfig_cases h
        unfold rdbyteActive at h
        split at h
        · cases h
          exact .inr (.inr (.inl ⟨hf, _, by decide, rfl⟩))
        · exact .inr (.inl ⟨hf, quiet (by decide) h⟩)
      · exact .inr (.inr (.inl ⟨hf, _, by decide, rfl⟩))
  | extract hash =>
    rcases unlessFaulted_cases h with h | ⟨hf, h⟩
    · exact .inl h
    · rcases lifecycleGate_cases h with ⟨-, h⟩ | ⟨hl, h⟩ | ⟨-, rfl⟩
      · exact .inr (.inl ⟨hf, quiet (by decide) h⟩)
      · obtain ⟨c, hc, h⟩ := withConfig_cases h
        exact .inr (.inl ⟨hf, quiet (by decide) h⟩)
      · exact .inr (.inr (.inl ⟨hf, _, by decide, rfl⟩))
  | rdcfg =>
    rcases unlessFaulted_cases h with h | ⟨hf, h⟩
    · exact .inl h
    · exact .inr (.inl ⟨hf, quiet (by decide) h⟩)

/-- An answered input is a request's or the reset's answer with the position moved on. -/
theorem advanceAnswer_cases {a : Answer} (h : advanceAnswer a = .next t) :
    ∃ u, a = .next u ∧ t = u.advance := by
  cases a <;> simp [advanceAnswer] at h
  exact ⟨_, rfl, h.symm⟩

/-- Everything a step can do when it answers: idle; an illegal word; a command; the reset input. -/
theorem step_cases (h : step s = .next t) :
    (s.nextInput? = none ∧ t = s) ∨
    (∃ q e, s.nextInput? = some (.request q) ∧ decode q = .error e ∧
      ((s.fault = true ∧ t = s.respondFaulted.advance) ∨
        (s.fault = false ∧ t = (s.respond .illegalCommand 0 0).advance))) ∨
    (∃ q i u, s.nextInput? = some (.request q) ∧ decode q = .ok i ∧ exec i s = .next u ∧
      t = u.advance) ∨
    (s.nextInput? = some .reset ∧ t = s.takeReset.advance) := by
  unfold step serve at h
  split at h
  · cases h
    exact .inl ⟨‹_›, rfl⟩
  · obtain ⟨u, hu, rfl⟩ := advanceAnswer_cases h
    rename_i x hx
    cases x with
    | request q =>
      simp only [serveInput, serveRequest] at hu
      split at hu
      · rename_i e he
        refine .inr (.inl ⟨q, e, hx, he, ?_⟩)
        rcases unlessFaulted_cases hu with ⟨hf, rfl⟩ | ⟨hf, hu⟩
        · exact .inl ⟨hf, rfl⟩
        · cases hu
          exact .inr ⟨hf, rfl⟩
      · rename_i i hi
        exact .inr (.inr (.inl ⟨q, i, u, hx, hi, hu, rfl⟩))
    | reset =>
      cases hu
      exact .inr (.inr (.inr ⟨hx, rfl⟩))

end Sys2Proof.Machine
end

