-- ==== Sys2Proof/Laws/RankExtractor.lean ====
section
/-! SUPPORT. The laws of the rank extractor: what ctz finds, and the ranges of the bucket, the rank and the
saturated rank (41_rank_extractor.md R141 to R146). -/

namespace Sys2Proof.Machine

theorem leNat_lt (bs : List Byte) : leNat bs < 2 ^ (8 * bs.length) := by
  induction bs with
  | nil => simp [leNat]
  | cons b bs ih =>
    have hb := b.isLt
    rw [leNat, List.length_cons, Nat.mul_succ, Nat.pow_add]
    nlinarith

theorem hashLE_lt (h : HashIn) (off n : Nat) : hashLE h off n < 2 ^ (8 * n) :=
  (leNat_lt _).trans_le (Nat.pow_le_pow_right (by omega)
    (Nat.mul_le_mul_left 8 (List.length_take_le _ _)))

/-- For a number with a bit among its low ones, ctz is the place of the lowest (00_scope.md R9). -/
theorem ctz_spec {n x p : Nat} (hp : p < n) (h1 : x.testBit p = true)
    (h0 : ∀ j, j < p → x.testBit j = false) : ctz n x = p := by
  induction n generalizing x p with
  | zero => omega
  | succ n ih =>
    cases p with
    | zero =>
      rw [Nat.testBit_zero, decide_eq_true_eq] at h1
      rw [ctz, if_pos h1]
    | succ p =>
      have h00 := h0 0 (by omega)
      rw [Nat.testBit_zero, decide_eq_false_iff_not] at h00
      rw [ctz, if_neg h00, Nat.add_comm]
      refine congrArg _ (ih (by omega) ?_ fun j hj => ?_)
      · rwa [Nat.testBit_succ] at h1
      · rw [← Nat.testBit_succ]
        exact h0 _ (by omega)

/-- The lowest 1 bit of a number that has one. -/
theorem exists_lowest_bit {x n : Nat} (h : x.testBit n = true) :
    ∃ p, p ≤ n ∧ x.testBit p = true ∧ ∀ j, j < p → x.testBit j = false := by
  have hex : ∃ p, x.testBit p = true := ⟨n, h⟩
  exact ⟨Nat.find hex, Nat.find_min' hex h, Nat.find_spec hex,
    fun _ hj => Bool.eq_false_of_not_eq_true (Nat.find_min hex hj)⟩

theorem Width.rankBits_pos (w : Width) : 0 < w.rankBits := by cases w <;> decide

theorem Width.cap_eq (w : Width) : w.cap = w.rankBits - 1 := by cases w <;> decide

/-- The guard bit is a 1 bit of the guarded field, and the bits below it are the field's
(41_rank_extractor.md R143). -/
theorem guarded_testBit (w : Width) (h : HashIn) (p : Nat) :
    (guarded w h).testBit p = (decide (p = w.rankBits - 1) || (rankField w h).testBit p) := by
  rw [guarded, Nat.testBit_or, Nat.testBit_two_pow, Bool.or_comm]
  congr 1
  simp [eq_comm]

/-- The rank is p + 1 for the lowest 1 bit p of the guarded field, and there is one
(41_rank_extractor.md R143). -/
theorem rank_spec (w : Width) (h : HashIn) :
    ∃ p, p < w.rankBits ∧ rank w h = p + 1 ∧ (guarded w h).testBit p = true ∧
      ∀ j, j < p → (guarded w h).testBit j = false := by
  have hpos := w.rankBits_pos
  obtain ⟨p, hp, h1, h0⟩ := exists_lowest_bit (x := guarded w h) (n := w.rankBits - 1)
    (by rw [guarded_testBit]; simp)
  exact ⟨p, by omega, by rw [rank, ctz_spec (by omega) h1 h0, Nat.add_comm], h1, h0⟩

theorem rank_pos (w : Width) (h : HashIn) : 1 ≤ rank w h := Nat.le_add_right 1 _

theorem rank_le (w : Width) (h : HashIn) : rank w h ≤ w.rankBits := by
  obtain ⟨p, hp, hr, -⟩ := rank_spec w h
  omega

/-- A saturated rank fits the register (41_rank_extractor.md R146). -/
theorem saturate_lt (w : Width) (k : Nat) : saturate w k < 2 ^ w.bits :=
  (Nat.min_le_right _ _).trans_lt (Nat.sub_lt (Nat.two_pow_pos _) Nat.one_pos)

theorem saturate_toNat (w : Width) (k : Nat) : (BitVec.ofNat 8 (saturate w k)).toNat = saturate w k := by
  have h := saturate_lt w k
  rw [BitVec.toNat_ofNat, Nat.mod_eq_of_lt]
  cases w <;> simp only [Width.bits] at h <;> omega

/-- The bucket is the index field modulo m (41_rank_extractor.md R141). -/
theorem bucket_eq_mod (c : ActiveConfig) (h : HashIn) :
    bucket c h = indexField h % 2 ^ c.exponent := Nat.and_two_pow_sub_one_eq_mod _ _

/-- The bucket is below m (41_rank_extractor.md R141). -/
theorem bucket_lt (c : ActiveConfig) (h : HashIn) : bucket c h < c.regCount := by
  rw [bucket_eq_mod]
  exact Nat.mod_lt _ (Nat.two_pow_pos _)

variable (s : State)

/-- The updated register is the maximum of the old value and the saturated rank (43_counter_control.md
R211). -/
theorem State.getReg_updateReg_same (w : Width) (q k : Nat) :
    ((s.updateReg w q k).getReg w q).toNat = max (s.getReg w q).toNat (saturate w k) := by
  unfold State.updateReg
  split
  · rw [State.getReg_setReg_same _ _ _ _ (by rw [saturate_toNat]; exact saturate_lt w k),
      saturate_toNat]
    omega
  · omega

/-- Every other register stays (43_counter_control.md R212). -/
theorem State.getReg_updateReg_other (w : Width) {q j : Nat} (k : Nat) (h : j ≠ q) :
    (s.updateReg w q k).getReg w j = s.getReg w j := by
  unfold State.updateReg
  split
  · exact State.getReg_setReg_other _ _ _ (by rw [saturate_toNat]; exact saturate_lt w k) h
  · rfl

/-- The update changes no bit but the register's (43_counter_control.md R212). -/
theorem State.storeBit_updateReg_other (w : Width) {q n : Nat} (k : Nat)
    (h : n < w.bits * q ∨ w.bits * q + w.bits ≤ n) :
    (s.updateReg w q k).storeBit n = s.storeBit n := by
  unfold State.updateReg
  split
  · rw [State.setReg_bit _ _ _ _ _ (by rw [saturate_toNat]; exact saturate_lt w k), if_neg (by omega)]
  · rfl

/-- A register the rank does not exceed is left as it is (43_counter_control.md R211). -/
theorem State.updateReg_of_le (w : Width) {q k : Nat} (h : saturate w k ≤ (s.getReg w q).toNat) :
    s.updateReg w q k = s := if_neg (by omega)

/-- An update is a register write of a fitting value, or nothing. -/
theorem State.updateReg_cases (w : Width) (q k : Nat) :
    s.updateReg w q k = s ∨
      ∃ v : Byte, v.toNat < 2 ^ w.bits ∧ s.updateReg w q k = s.setReg w q v := by
  unfold State.updateReg
  split
  · exact .inr ⟨_, by rw [saturate_toNat]; exact saturate_lt w k, rfl⟩
  · exact .inl rfl

/-- The rank field of assembled hash bytes does not depend on the index (30_encoding.md R83). -/
theorem rankField_hash (w : Width) (idx : DWord) (bytes : List Byte) :
    rankField w (Asm.hash idx bytes) = rankField w (Asm.hash 0 bytes) := by
  cases w <;> rfl

/-- `ADDK idx, k` and `EXTRACTK idx, k` make hash bytes of rank k, for every k of the width
(30_encoding.md R84). -/
theorem rank_rankBytes (w : Width) (idx : DWord) (k : Nat) (h1 : 1 ≤ k) (hk : k ≤ w.rankBits) :
    rank w (Asm.hash idx (Asm.rankBytes w.bits k)) = k := by
  rw [rank, guarded, rankField_hash]
  have key : ∀ w : Width, ∀ k < w.rankBits + 1, 1 ≤ k →
      rank w (Asm.hash 0 (Asm.rankBytes w.bits k)) = k := by
    intro w
    cases w <;> decide +kernel
  exact key w k (by omega) h1

end Sys2Proof.Machine
end

