-- ==== Sys2Proof/Laws/Binary64.lean ====
section
/-! SUPPORT. The laws of rounding to binary64: what the rounded integer, the binade and the significand
are, and the value of the encoding they make (00_scope.md R11; 42_estimator.md R180). -/

namespace Sys2Proof.Machine

theorem minExp_eq : minExp = 1022 := by decide +kernel

/-- The rounded integer is within one half of the quotient. -/
theorem roundHalfEven_near (num den : Nat) (hd : 0 < den) :
    2 * num ≤ 2 * (den * roundHalfEven num den) + den ∧
      2 * (den * roundHalfEven num den) ≤ 2 * num + den := by
  have h := Nat.div_add_mod num den
  have hlt := Nat.mod_lt num hd
  unfold roundHalfEven
  dsimp only
  split
  · omega
  · split
    · rw [Nat.mul_add, Nat.mul_one]
      omega
    · have h2 : num / den % 2 = 0 ∨ num / den % 2 = 1 := by omega
      rcases h2 with h2 | h2 <;> rw [h2, Nat.mul_add] <;> omega

/-- At exactly one half the rounded integer is even. -/
theorem roundHalfEven_tie (num den : Nat) (h : 2 * (num % den) = den) :
    roundHalfEven num den % 2 = 0 := by
  unfold roundHalfEven
  dsimp only
  rw [if_neg (by omega), if_neg (by omega)]
  omega

/-- Rounding depends only on the quotient. -/
theorem roundHalfEven_mul (k num den : Nat) (hk : 0 < k) :
    roundHalfEven (k * num) (k * den) = roundHalfEven num den := by
  simp only [roundHalfEven, Nat.mul_div_mul_left _ _ hk, Nat.mul_mod_mul_left,
    Nat.mul_left_comm 2 k, Nat.mul_lt_mul_left hk]

/-- Equal rationals round to one number (00_scope.md R11). -/
theorem roundBits_congr {x y : Frac} (hx : 0 < x.den) (hy : 0 < y.den)
    (h : x.num * y.den = y.num * x.den) : roundBits x = roundBits y := by
  have hdiv : ∀ K : Nat, x.num * K / x.den = y.num * K / y.den := fun K => by
    rw [← Nat.mul_div_mul_left _ _ hy, ← Nat.mul_div_mul_left (y.num * K) _ hx,
      Nat.mul_comm y.den x.den]
    congr 1
    calc y.den * (x.num * K) = x.num * y.den * K := by ring
      _ = x.den * (y.num * K) := by rw [h]; ring
  have hb : binade x = binade y := by rw [binade, binade, hdiv]
  have hs : significand x = significand y := by
    unfold significand
    rw [hb]
    generalize 2 ^ (minExp + 52) = K
    generalize 2 ^ binade y = T
    calc roundHalfEven (x.num * K) (x.den * T)
        = roundHalfEven (y.den * (x.num * K)) (y.den * (x.den * T)) :=
          (roundHalfEven_mul _ _ _ hy).symm
      _ = roundHalfEven (x.den * (y.num * K)) (x.den * (y.den * T)) := by
          congr 1
          · calc y.den * (x.num * K) = x.num * y.den * K := by ring
              _ = x.den * (y.num * K) := by rw [h]; ring
          · ring
      _ = roundHalfEven (y.num * K) (y.den * T) := roundHalfEven_mul _ _ _ hx
  rw [roundBits, roundBits, hb, hs]

/-- Equal rationals have one encoding (00_scope.md R11). -/
theorem rne64_congr {x y : Frac} (hx : 0 < x.den) (hy : 0 < y.den)
    (h : x.num * y.den = y.num * x.den) : rne64 x = rne64 y :=
  congrArg (BitVec.ofNat 64) (roundBits_congr hx hy h)

/-- The binade's bounds: 2^t <= 2^minExp * x (but for subnormal x), and 2^minExp * x < 2^(t+1). -/
theorem binade_bounds (x : Frac) (hd : 0 < x.den) :
    (0 < binade x → 2 ^ binade x * x.den ≤ x.num * 2 ^ minExp) ∧
      x.num * 2 ^ minExp < 2 ^ (binade x + 1) * x.den := by
  unfold binade
  generalize x.num * 2 ^ minExp = n
  have hlt : n / x.den < 2 ^ (Nat.log2 (n / x.den) + 1) := Nat.lt_log2_self
  refine ⟨fun h => ?_, (Nat.div_lt_iff_lt_mul hd).1 hlt⟩
  have hne : n / x.den ≠ 0 := by
    intro h0
    simp [h0] at h
  exact (Nat.le_div_iff_mul_le hd).1 (Nat.log2_self_le hne)

/-- The significand's bounds: at least 2^52 (but for subnormal x) and at most 2^53, the carry. -/
theorem significand_bounds (x : Frac) (hd : 0 < x.den) :
    (0 < binade x → 2 ^ 52 ≤ significand x) ∧ significand x ≤ 2 ^ 53 := by
  obtain ⟨hlo, hhi⟩ := binade_bounds x hd
  have hD : 0 < x.den * 2 ^ binade x := Nat.mul_pos hd (Nat.two_pow_pos _)
  obtain ⟨h1, h2⟩ := roundHalfEven_near (x.num * 2 ^ (minExp + 52)) _ hD
  have e : x.num * 2 ^ (minExp + 52) = x.num * 2 ^ minExp * 2 ^ 52 := by
    rw [Nat.mul_assoc, ← Nat.pow_add]
  change 2 * (x.num * 2 ^ (minExp + 52)) ≤ 2 * (x.den * 2 ^ binade x * significand x) + _ at h1
  change 2 * (x.den * 2 ^ binade x * significand x) ≤ _ at h2
  rw [Nat.pow_succ] at hhi
  rw [e] at h1 h2
  constructor
  · intro h
    have hlo := hlo h
    by_contra hlt
    have : x.den * 2 ^ binade x * (significand x + 1) ≤ x.den * 2 ^ binade x * 2 ^ 52 :=
      Nat.mul_le_mul_left _ (by omega)
    nlinarith
  · by_contra hgt
    have : x.den * 2 ^ binade x * (2 ^ 53 + 1) ≤ x.den * 2 ^ binade x * significand x :=
      Nat.mul_le_mul_left _ (by omega)
    nlinarith

/-- The value of the encoding made of a binade t and a significand in its range is significand * 2^t, in
units of 2^-1074, the carry included. -/
theorem binary64Scaled_make (t k : Nat) (h0 : 0 < t → 2 ^ 52 ≤ k) (h1 : k ≤ 2 ^ 53) :
    binary64Scaled (t * 2 ^ 52 + k) = k * 2 ^ t := by
  unfold binary64Scaled
  dsimp only
  by_cases hk : k < 2 ^ 52
  · have ht : t = 0 := by omega
    subst ht
    rw [if_pos (by omega)]
    omega
  · by_cases hc : k = 2 ^ 53
    · rw [show (t * 2 ^ 52 + k) / 2 ^ 52 = t + 2 by omega,
        show (t * 2 ^ 52 + k) % 2 ^ 52 = 0 by omega, if_neg (by omega), hc,
        show t + 2 - 1 = t + 1 by omega, Nat.pow_succ]
      ring
    · rw [show (t * 2 ^ 52 + k) / 2 ^ 52 = t + 1 by omega,
        show (t * 2 ^ 52 + k) % 2 ^ 52 = k - 2 ^ 52 by omega, if_neg (by omega),
        show t + 1 - 1 = t by omega, show 2 ^ 52 + (k - 2 ^ 52) = k by omega]

/-- A rational below 2^(minExp + 1) rounds within the finite numbers. -/
theorem binade_lt (x : Frac) (hd : 0 < x.den) (hx : x.num < 2 ^ (minExp + 1) * x.den) : binade x ≤ 2 * minExp := by
  have hlo := (binade_bounds x hd).1
  by_contra h
  have hlo := hlo (by omega)
  have h1 : 2 ^ (2 * minExp + 1) * x.den ≤ 2 ^ binade x * x.den :=
    Nat.mul_le_mul_right _ (Nat.pow_le_pow_right (by omega) (by omega))
  have h2 : x.num * 2 ^ minExp < 2 ^ (minExp + 1) * x.den * 2 ^ minExp :=
    Nat.mul_lt_mul_of_pos_right hx (Nat.two_pow_pos _)
  have h3 : 2 ^ (minExp + 1) * x.den * 2 ^ minExp = 2 ^ (2 * minExp + 1) * x.den := by
    rw [Nat.mul_right_comm, ← Nat.pow_add, show minExp + 1 + minExp = 2 * minExp + 1 by omega]
  omega

/-- Below 2^(minExp + 1) the encoding is the binade and the significand, with no overflow. -/
theorem roundBits_eq (x : Frac) (hd : 0 < x.den) (hx : x.num < 2 ^ (minExp + 1) * x.den) :
    roundBits x = binade x * 2 ^ 52 + significand x ∧ roundBits x < 2047 * 2 ^ 52 := by
  have h1 := binade_lt x hd hx
  have h2 := (significand_bounds x hd).2
  have h3 := minExp_eq
  unfold roundBits
  omega

end Sys2Proof.Machine
end

