-- ==== Sys2Proof/Laws/LinCount.lean ====
section
/-! SUPPORT. The rationals LINCOUNT rounds enclose m * ln(m/Z) (42_estimator.md R175). -/

namespace Sys2Proof.Machine

open Finset

/-- The real value of an exact rational. -/
noncomputable abbrev Frac.real (x : Frac) : ℝ := (x.num : ℝ) / x.den

theorem Frac.real_add {x y : Frac} (hx : 0 < x.den) (hy : 0 < y.den) :
    (x.add y).real = x.real + y.real := by
  have h1 : (x.den : ℝ) ≠ 0 := by positivity
  have h2 : (y.den : ℝ) ≠ 0 := by positivity
  simp only [Frac.real, Frac.add]
  push_cast
  rw [div_add_div _ _ h1 h2]
  ring_nf

theorem Frac.real_scale (n : Nat) (x : Frac) : (x.scale n).real = n * x.real := by
  simp only [Frac.real, Frac.scale]
  push_cast
  ring

theorem atanhTail_den_pos {p q : Nat} (hq : 0 < q) (i n : Nat) : 0 < (atanhTail p q i n).den := by
  induction n generalizing i with
  | zero => exact Nat.one_pos
  | succ n ih =>
    have := ih (i + 1)
    simp only [atanhTail]
    positivity

/-- Horner's form is the series' partial sum. -/
theorem atanhTail_real {p q : Nat} (hq : 0 < q) (i n : Nat) :
    (atanhTail p q i n).real =
      ∑ j ∈ range n, ((p : ℝ) / q) ^ (2 * j) / (2 * ((i + j : ℕ) : ℝ) + 1) := by
  induction n generalizing i with
  | zero => simp [atanhTail, Frac.real]
  | succ n ih =>
    have hd : ((atanhTail p q (i + 1) n).den : ℝ) ≠ 0 := by
      have := atanhTail_den_pos (p := p) hq (i + 1) n
      positivity
    have hq' : (q : ℝ) ≠ 0 := by positivity
    have hi : (2 * (i : ℝ) + 1) ≠ 0 := by positivity
    have step : (atanhTail p q i (n + 1)).real =
        1 / (2 * (i : ℝ) + 1) + ((p : ℝ) / q) ^ 2 * (atanhTail p q (i + 1) n).real := by
      simp only [Frac.real, atanhTail]
      push_cast
      field_simp
    rw [step, ih, sum_range_succ', mul_sum, add_comm]
    congr 1
    · refine sum_congr rfl fun j _ => ?_
      rw [show 2 * (j + 1) = 2 * j + 2 by ring, pow_add, show i + 1 + j = i + (j + 1) by ring]
      ring

theorem atanhLower_den_pos {p q : Nat} (hq : 0 < q) (n : Nat) : 0 < (atanhLower p q n).den :=
  Nat.mul_pos hq (atanhTail_den_pos hq 0 n)

theorem atanhLower_real {p q : Nat} (hq : 0 < q) (n : Nat) :
    (atanhLower p q n).real = ∑ j ∈ range n, ((p : ℝ) / q) ^ (2 * j + 1) / (2 * j + 1) := by
  have h : (atanhLower p q n).real = (p : ℝ) / q * (atanhTail p q 0 n).real := by
    simp only [Frac.real, atanhLower]
    push_cast
    rw [mul_div_mul_comm]
  rw [h, atanhTail_real hq, mul_sum]
  refine sum_congr rfl fun j _ => ?_
  rw [Nat.zero_add]
  ring

theorem rest_den_pos {p q : Nat} (hpq : p < q) (n : Nat) : 0 < q ^ (2 * n + 1) * (q ^ 2 - p ^ 2) :=
  Nat.mul_pos (Nat.pow_pos (by omega))
    (Nat.sub_pos_of_lt (Nat.pow_lt_pow_left hpq (by omega)))

theorem atanhUpper_den_pos {p q : Nat} (hpq : p < q) (n : Nat) : 0 < (atanhUpper p q n).den :=
  Nat.mul_pos (atanhLower_den_pos (by omega) n) (rest_den_pos hpq n)

theorem atanhUpper_real {p q : Nat} (hpq : p < q) (n : Nat) :
    (atanhUpper p q n).real =
      (∑ j ∈ range n, ((p : ℝ) / q) ^ (2 * j + 1) / (2 * j + 1)) +
        ((p : ℝ) / q) ^ (2 * n + 1) / (1 - ((p : ℝ) / q) ^ 2) := by
  have hq : 0 < q := by omega
  have hq' : (q : ℝ) ≠ 0 := by positivity
  have hpq' : (p : ℝ) < q := by exact_mod_cast hpq
  have hsub : (q : ℝ) ^ 2 - (p : ℝ) ^ 2 ≠ 0 := by
    have : (p : ℝ) ^ 2 < (q : ℝ) ^ 2 := pow_lt_pow_left₀ hpq' (by positivity) (by omega)
    exact (sub_pos.2 this).ne'
  have hle : p ^ 2 ≤ q ^ 2 := Nat.pow_le_pow_left hpq.le 2
  rw [atanhUpper, Frac.real_add (atanhLower_den_pos hq n) (rest_den_pos hpq n), atanhLower_real hq]
  congr 1
  simp only [Frac.real]
  push_cast [Nat.cast_sub hle]
  rw [div_pow, div_pow, show 1 - (p : ℝ) ^ 2 / (q : ℝ) ^ 2 = ((q : ℝ) ^ 2 - p ^ 2) / q ^ 2 by
    field_simp]
  field_simp

/-- The partial sums enclose the half logarithm. -/
theorem atanh_encloses {p q : Nat} (hpq : p < q) (n : Nat) :
    (atanhLower p q n).real ≤ 1 / 2 * Real.log (((q + p : ℕ) : ℝ) / ((q : ℝ) - p)) ∧
      1 / 2 * Real.log (((q + p : ℕ) : ℝ) / ((q : ℝ) - p)) ≤ (atanhUpper p q n).real := by
  have hq : 0 < q := by omega
  have hq' : (0 : ℝ) < q := by positivity
  have hpq' : (p : ℝ) < q := by exact_mod_cast hpq
  have h0 : (0 : ℝ) ≤ (p : ℝ) / q := by positivity
  have h1 : (p : ℝ) / q < 1 := (div_lt_one hq').2 hpq'
  have e : ((q + p : ℕ) : ℝ) / ((q : ℝ) - p) = (1 + (p : ℝ) / q) / (1 - (p : ℝ) / q) := by
    have : (q : ℝ) - p ≠ 0 := (sub_pos.2 hpq').ne'
    have : 1 - (p : ℝ) / q ≠ 0 := (sub_pos.2 h1).ne'
    push_cast
    field_simp
  rw [atanhLower_real hq, atanhUpper_real hpq, e]
  exact ⟨Real.sum_range_le_log_div h0 h1 n, Real.log_div_le_sum_range_add h0 h1 n⟩

/-- 2^k * z <= m for the shift LINCOUNT takes out. -/
theorem lnShift_le {m z : Nat} (hz : 1 ≤ z) (hzm : z ≤ m) : 2 ^ lnShift m z * z ≤ m := by
  have hne : m / z ≠ 0 := (Nat.div_pos hzm hz).ne'
  exact (Nat.le_div_iff_mul_le hz).1 (Nat.log2_self_le hne)

theorem lnCombine_den_pos {m z : Nat} {x y : Frac} (hx : 0 < x.den) (hy : 0 < y.den) :
    0 < (lnCombine m z x y).den := Nat.mul_pos hx hy

theorem lnCombine_real {m z : Nat} {x y : Frac} (hx : 0 < x.den) (hy : 0 < y.den) :
    (lnCombine m z x y).real = 2 * m * (lnShift m z * x.real + y.real) := by
  have hx' : 0 < (x.scale (lnShift m z)).den := hx
  rw [lnCombine, Frac.real_scale, Frac.real_add hx' hy, Frac.real_scale]
  push_cast
  ring

theorem lincountLower_den_pos {m z : Nat} (hz : 1 ≤ z) (n : Nat) :
    0 < (lincountLower m z n).den :=
  lnCombine_den_pos (atanhLower_den_pos (by omega) n) (atanhLower_den_pos
    (Nat.add_pos_right _ (Nat.mul_pos (Nat.two_pow_pos _) hz)) n)

theorem lincountUpper_den_pos {m z : Nat} (hz : 1 ≤ z) (hzm : z ≤ m) (n : Nat) :
    0 < (lincountUpper m z n).den := by
  have hk := lnShift_le hz hzm
  have hkz : 0 < 2 ^ lnShift m z * z := Nat.mul_pos (Nat.two_pow_pos _) hz
  exact lnCombine_den_pos (atanhUpper_den_pos (by omega) n) (atanhUpper_den_pos (by omega) n)

/-- The two bounds LINCOUNT rounds enclose m * ln(m/z), at any number of terms (42_estimator.md R175). -/
theorem lincount_encloses {m z : Nat} (hz : 1 ≤ z) (hzm : z ≤ m) (n : Nat) :
    (lincountLower m z n).real ≤ m * Real.log ((m : ℝ) / z) ∧
      m * Real.log ((m : ℝ) / z) ≤ (lincountUpper m z n).real := by
  have hk := lnShift_le hz hzm
  have hkz : 0 < 2 ^ lnShift m z * z := Nat.mul_pos (Nat.two_pow_pos _) hz
  have hpq : m - 2 ^ lnShift m z * z < m + 2 ^ lnShift m z * z := by omega
  obtain ⟨a1, a2⟩ := atanh_encloses (p := 1) (q := 3) (by omega) n
  obtain ⟨b1, b2⟩ := atanh_encloses hpq n
  have e2 : ((3 + 1 : ℕ) : ℝ) / (((3 : ℕ) : ℝ) - ((1 : ℕ) : ℝ)) = 2 := by norm_num
  have er : ((m + 2 ^ lnShift m z * z + (m - 2 ^ lnShift m z * z) : ℕ) : ℝ) /
      (((m + 2 ^ lnShift m z * z : ℕ) : ℝ) - ((m - 2 ^ lnShift m z * z : ℕ) : ℝ)) =
        m / (2 ^ lnShift m z * z) := by
    rw [show m + 2 ^ lnShift m z * z + (m - 2 ^ lnShift m z * z) = 2 * m by omega]
    push_cast [Nat.cast_sub hk]
    rw [show (m : ℝ) + 2 ^ lnShift m z * z - (m - 2 ^ lnShift m z * z) =
      2 * (2 ^ lnShift m z * z) by ring]
    rw [mul_div_mul_left _ _ (by norm_num)]
  rw [e2] at a1 a2
  rw [er] at b1 b2
  have hm0 : (m : ℝ) ≠ 0 := by
    have : 0 < m := by omega
    positivity
  have hz0 : (z : ℝ) ≠ 0 := by positivity
  have hlog : Real.log ((m : ℝ) / z) =
      2 * (lnShift m z * (1 / 2 * Real.log 2) +
        1 / 2 * Real.log (m / (2 ^ lnShift m z * z))) := by
    rw [Real.log_div hm0 hz0, Real.log_div hm0 (mul_ne_zero (by positivity) hz0),
      Real.log_mul (by positivity) hz0, Real.log_pow]
    ring
  have l1 := atanhLower_den_pos (p := 1) (q := 3) (by omega) n
  have l2 := atanhLower_den_pos (p := m - 2 ^ lnShift m z * z) (q := m + 2 ^ lnShift m z * z)
    (by omega) n
  have u1 := atanhUpper_den_pos (p := 1) (q := 3) (by omega) n
  have u2 := atanhUpper_den_pos hpq n
  rw [lincountLower, lincountUpper, lnCombine_real l1 l2, lnCombine_real u1 u2, hlog, ← mul_assoc,
    mul_comm (m : ℝ) 2]
  constructor <;> gcongr

/-- What the search can answer: the rounding of a bound after some of its doublings, at which both bounds
round to one number or no try is left (42_estimator.md R175). -/
theorem lincountSearch_spec (m z tries n : Nat) :
    ∃ k ≤ tries,
      (lincountSearch m z tries n = rne64 (lincountLower m z (n * 2 ^ k)) ∨
        lincountSearch m z tries n = rne64 (lincountUpper m z (n * 2 ^ k))) ∧
      (rne64 (lincountLower m z (n * 2 ^ k)) = rne64 (lincountUpper m z (n * 2 ^ k)) ∨ k = tries) := by
  induction tries generalizing n with
  | zero =>
    refine ⟨0, le_rfl, ?_, .inr rfl⟩
    rw [lincountSearch, pow_zero, Nat.mul_one]
    split
    · exact .inr rfl
    · exact .inl rfl
  | succ tries ih =>
    rw [lincountSearch]
    split
    · rename_i h
      exact ⟨0, by omega, .inl (by rw [pow_zero, Nat.mul_one]), .inl (by rw [pow_zero, Nat.mul_one, h])⟩
    · obtain ⟨k, hk, h⟩ := ih (2 * n)
      rw [show 2 * n * 2 ^ k = n * 2 ^ (k + 1) by ring] at h
      exact ⟨k + 1, by omega, h.1, h.2.imp_right fun h => by omega⟩

end Sys2Proof.Machine
end

