-- ==== Sys2Proof/Laws/Estimator.lean ====
section
/-! SUPPORT. The estimator's integers are the spec's rationals: S, Z, alpha and E (42_estimator.md R170 to
R176). -/

namespace Sys2Proof.Machine

open Finset Sys2Proof.Safety

/-- The scaled sum is 2^cap times the sum of 2^(-v) (42_estimator.md R170). -/
theorem scaledSum_eq (get : Nat → Byte) (cap : Nat) (h : ∀ i, (get i).toNat ≤ cap) (n : Nat) :
    (scaledSum get cap n : ℚ) = 2 ^ cap * ∑ i ∈ range n, (1 / 2 : ℚ) ^ (get i).toNat := by
  induction n with
  | zero => simp [scaledSum]
  | succ n ih =>
    rw [scaledSum, sum_range_succ, mul_add, ← ih]
    push_cast
    congr 1
    rw [one_div, inv_pow, ← pow_sub₀ _ (by norm_num) (h n)]

/-- The scaled sum is at least the number of registers (42_estimator.md R171). -/
theorem le_scaledSum (get : Nat → Byte) (cap n : Nat) : n ≤ scaledSum get cap n := by
  induction n with
  | zero => exact Nat.zero_le _
  | succ n ih =>
    have := Nat.two_pow_pos (cap - (get n).toNat)
    rw [scaledSum]
    omega

/-- Z counts the empty registers (42_estimator.md R170). -/
theorem emptyCount_eq (get : Nat → Byte) (n : Nat) :
    emptyCount get n = ((range n).filter (fun i => get i = 0)).card := by
  induction n with
  | zero => rfl
  | succ n ih =>
    rw [emptyCount, ih, range_add_one, filter_insert]
    split
    · rw [card_insert_of_notMem (by simp)]
    · rw [Nat.add_zero]

theorem alpha_den_pos (b : Nat) : 0 < (alpha b).den := by
  unfold alpha
  split
  · decide
  · split
    · decide
    · split
      · decide
      · exact Nat.add_pos_right _ (by decide)

/-- alpha(b) as the spec's rational (42_estimator.md R172). -/
theorem alpha_eq (b : Nat) : ((alpha b).num : ℚ) / (alpha b).den = alphaQ b := by
  unfold alpha alphaQ
  split
  · norm_num
  · split
    · norm_num
    · split
      · norm_num
      · have h : (2 : ℚ) ^ b ≠ 0 := by positivity
        have h1 : (1 : ℚ) + 1.079 / 2 ^ b ≠ 0 := by positivity
        have h2 : (10000 : ℚ) * 2 ^ b + 10790 ≠ 0 := by positivity
        push_cast
        rw [div_eq_div_iff h2 h1]
        field_simp
        ring

variable (s : State) (c : ActiveConfig)

theorem State.rawEstimate_den_pos : 0 < (s.rawEstimate c).den :=
  Nat.mul_pos (alpha_den_pos _)
    (lt_of_lt_of_le (Nat.two_pow_pos _) (le_scaledSum _ _ _))

/-- The raw estimate is the spec's rational E (42_estimator.md R173). -/
theorem State.rawEstimate_eq : ((s.rawEstimate c).num : ℚ) / (s.rawEstimate c).den = rawQ s c := by
  have hT := scaledSum_eq (s.getReg c.width) c.width.cap (fun i => s.getReg_le_cap c.width i) c.regCount
  have hS : sumQ s c = ∑ i ∈ range c.regCount, (1 / 2 : ℚ) ^ (s.getReg c.width i).toNat := rfl
  have hcap : (2 : ℚ) ^ c.width.cap ≠ 0 := by positivity
  simp only [State.rawEstimate, Machine.rawEstimate, rawQ]
  push_cast
  rw [hT, ← hS, ← alpha_eq, ActiveConfig.regCount]
  push_cast
  rw [mul_comm _ ((2 : ℚ) ^ c.width.cap), mul_left_comm _ ((2 : ℚ) ^ c.width.cap),
    mul_div_mul_left _ _ hcap, mul_div_mul_comm, mul_div_assoc]

/-- The small-range test is the spec's comparison (42_estimator.md R176). -/
theorem smallRange_iff (b : Nat) {e : Frac} (he : 0 < e.den) :
    smallRange b e = true ↔ (e.num : ℚ) / e.den ≤ 5 / 2 * ((2 ^ b : ℕ) : ℚ) := by
  have hd : (0 : ℚ) < e.den := by exact_mod_cast he
  rw [smallRange, decide_eq_true_iff, div_le_iff₀ hd, ← Nat.cast_le (α := ℚ)]
  push_cast
  constructor <;> intro h <;> linarith

end Sys2Proof.Machine
end

