-- ==== Sys2Proof/Laws/Invariant.lean ====
section
/-! SUPPORT. What a register write keeps of STORE: the other fields of the state, every listed byte
listed, every bound on the listed addresses, and the byte at the end of a width-6 image (10_state.md R26,
R34; 40_register_file.md R108). -/

namespace Sys2Proof.Machine

variable (s : State)

/-- A register write changes STORE alone. -/
theorem State.setReg_eta (w : Width) (i : Nat) (v : Byte) :
    s.setReg w i v = { s with store := (s.setReg w i v).store } := by
  cases w <;> rfl

/-- An update changes STORE alone. -/
theorem State.updateReg_eta (w : Width) (q k : Nat) :
    s.updateReg w q k = { s with store := (s.updateReg w q k).store } := by
  rcases s.updateReg_cases w q k with h | ⟨v, -, h⟩
  · rw [h]
  · rw [h]
    exact s.setReg_eta w q v

/-- A listed byte stays listed. -/
theorem State.setReg_listed (w : Width) (i a : Nat) (v : Byte)
    (h : (Store.read? s.store a).isSome = true) :
    (Store.read? (s.setReg w i v).store a).isSome = true := by
  refine s.setReg_store_induction (P := fun st => (Store.read? st a).isSome = true) _
    (fun st b u _ h => ?_) w i v le_rfl h
  rw [Store.read?_write]
  split <;> simp [h]

/-- A write whose bytes lie below n lists no byte from n on. -/
theorem State.setReg_bound (w : Width) (i n : Nat) (v : Byte)
    (hn : w.byteIndex i + w.accessBytes ≤ n) (h : ∀ x ∈ s.store, x.1 < n) :
    ∀ x ∈ (s.setReg w i v).store, x.1 < n := by
  refine s.setReg_store_induction (P := fun st => ∀ x ∈ st, x.1 < n) n
    (fun st b u hb h x hx => ?_) w i v hn h
  rcases Store.mem_write hx with rfl | hx
  · exact hb
  · exact h x hx

/-- A listed byte reads as loadByte reads it. -/
theorem State.loadByte_of_listed {a : Nat} (h : (Store.read? s.store a).isSome = true) :
    Store.read? s.store a = some (s.loadByte a) := by
  obtain ⟨x, hx⟩ := Option.isSome_iff_exists.1 h
  simp [State.loadByte, hx]

/-- A width-6 register write keeps the fourth byte of its view where that byte holds no register bit of
the view: it is the first byte of the next group, or the pad byte (10_state.md R34). -/
theorem State.setReg6_pad (i : Nat) (v b : Byte) (hv : v.toNat < 2 ^ 6)
    (h : Store.read? s.store (3 * (i / 4) + 3) = some b) :
    Store.read? (s.setReg .w6 i v).store (3 * (i / 4) + 3) = some b := by
  have hload : s.loadByte (3 * (i / 4) + 3) = b := by simp [State.loadByte, h]
  rw [State.loadByte_of_listed _ (s.setReg_listed .w6 i _ v (by simp [h])), ← hload]
  refine congrArg some (BitVec.eq_of_getLsbD_eq fun p hp => ?_)
  have hbit := s.setReg6_bit i (8 * (3 * (i / 4) + 3) + p) v hv
  rw [if_neg (by omega)] at hbit
  simp only [State.storeBit] at hbit
  rwa [show (8 * (3 * (i / 4) + 3) + p) / 8 = 3 * (i / 4) + 3 by omega,
    show (8 * (3 * (i / 4) + 3) + p) % 8 = p by omega] at hbit

/-- A byte outside the write's bytes is kept. -/
theorem State.setReg_read_other (w : Width) (i a : Nat) (v : Byte)
    (h : a < w.byteIndex i ∨ w.byteIndex i + w.accessBytes ≤ a) :
    Store.read? (s.setReg w i v).store a = Store.read? s.store a := by
  cases w <;> simp only [Width.accessBytes, Width.byteIndex] at h
  · simp only [State.setReg, State.storeByte_store, Store.read?_write, Width.byteIndex]
    rw [if_neg (by omega)]
  · simp only [State.setReg, State.storeView_store, Store.read?_write, Width.byteIndex]
    rw [if_neg (by omega), if_neg (by omega), if_neg (by omega), if_neg (by omega)]
  · simp only [State.setReg, State.storeByte_store, Store.read?_write, Width.byteIndex]
    rw [if_neg (by omega)]

/-- The reset store is in canonical form. -/
theorem State.reset_wf : Store.wf State.reset.store = true := rfl

/-- An image is never empty. -/
theorem Width.imageLen_pos (w : Width) (b : Nat) (h : w.bMin ≤ b) : 0 < w.imageLen b := by
  cases w <;> simp only [Width.imageLen, Width.bMin] at *
  · obtain ⟨k, rfl⟩ := Nat.exists_eq_add_of_le h
    have := Nat.two_pow_pos k
    rw [Nat.pow_add]
    omega
  · omega
  · exact Nat.two_pow_pos _

end Sys2Proof.Machine
end

