-- ==== Sys2Proof/Laws/PerInstr.lean ====
section
/-! SUPPORT. One fact of every instruction as it is written: it is well formed and its command word is
legal (30_encoding.md R78). -/

namespace Sys2Proof.Laws.EncodesLegally

/-- The instruction is well formed and its command word matches a row of the table of legal words
(30_encoding.md R78). -/
def Statement (i : Instr) : Prop := i.wellFormed = true ∧ legalWord (encodeWord i) = true

/-- A word that one row matches is legal. -/
theorem legalWord_of_row {row : LegalRow} {w : Word} (h : row ∈ legalRows)
    (hw : w &&& row.mask = row.pattern) : legalWord w = true :=
  List.any_eq_true.2 ⟨row, h, by simp [LegalRow.matches, hw]⟩

theorem init (rw be : Byte) (tv hv : Bool) : Statement (.init rw be tv hv) := by
  refine ⟨rfl, legalWord_of_row (row := ⟨"INIT", 0x00000001#32, 0xFFC0000F#32⟩) (by decide) ?_⟩
  have key : encodeWord (.init rw be tv hv) = BitVec.cast (m := 32) rfl
      (0#10 ++ BitVec.ofBool hv ++ BitVec.ofBool tv ++ be ++ rw ++ 0x1#4) := rfl
  refine BitVec.eq_of_getLsbD_eq fun p hp => ?_
  rw [key, BitVec.getLsbD_and, BitVec.getLsbD_cast]
  repeat rw [BitVec.getLsbD_append]
  interval_cases p <;> simp

theorem add (hash : HashIn) : Statement (.add hash) :=
  ⟨rfl, legalWord_of_row (row := ⟨"ADD", 0x00000002#32, 0xFFFFFFFF#32⟩) (by decide)
    (by simp only [encodeWord]; decide)⟩

theorem count : Statement .count :=
  ⟨rfl, legalWord_of_row (row := ⟨"COUNT", 0x00000003#32, 0xFFFFFFFF#32⟩) (by decide)
    (by simp only [encodeWord]; decide)⟩

theorem free : Statement .free :=
  ⟨rfl, legalWord_of_row (row := ⟨"FREE", 0x00000004#32, 0xFFFFFFFF#32⟩) (by decide)
    (by simp only [encodeWord]; decide)⟩

theorem rget (index : DWord) : Statement (.rget index) :=
  ⟨rfl, legalWord_of_row (row := ⟨"RGET", 0x00000005#32, 0xFFFFFFFF#32⟩) (by decide)
    (by simp only [encodeWord]; decide)⟩

theorem rdbyte (offset : DWord) : Statement (.rdbyte offset) :=
  ⟨rfl, legalWord_of_row (row := ⟨"RDBYTE", 0x00000006#32, 0xFFFFFFFF#32⟩) (by decide)
    (by simp only [encodeWord]; decide)⟩

theorem extract (hash : HashIn) : Statement (.extract hash) :=
  ⟨rfl, legalWord_of_row (row := ⟨"EXTRACT", 0x00000007#32, 0xFFFFFFFF#32⟩) (by decide)
    (by simp only [encodeWord]; decide)⟩

theorem rdcfg : Statement .rdcfg :=
  ⟨rfl, legalWord_of_row (row := ⟨"RDCFG", 0x00000008#32, 0xFFFFFFFF#32⟩) (by decide)
    (by simp only [encodeWord]; decide)⟩

end Sys2Proof.Laws.EncodesLegally
end

