-- ==== Sys2Proof/Tests/Slice0.lean ====
section
/-! SUPPORT. Tests of one step each, their expected results taken from 30_encoding.md R85 and the vectors
of 95_test_vectors.md, and a witness for the hypotheses of every statement that has some. -/

namespace Sys2Proof.Tests

open Sys2Proof.Machine Sys2Proof.Safety

-- One test after another: each elaborated beside the others takes a thread and its memory.
set_option Elab.async false

/-! Helpers -/

/-- An ACTIVE block of 16 bytes with configuration (r, b) and the given image. -/
def block (r b : Byte) (image : List Byte) : State :=
  { State.resetWith 16 with
    life := .active, cfgR := r, cfgB := b,
    store := (List.range image.length).map fun a => (a, image.getD a 0) }

/-- Width 4, b = 1, registers (3, 15): the block of vector V19. -/
def block4 : State := block 4 1 [0xF3]

/-- Width 6, b = 2, registers (5, 63, 42, 17): the block of vector V12. -/
def block6 : State := block 6 2 [0xC5, 0xAF, 0x46, 0x00]

/-- Width 8, b = 2, registers (1, 0, 0, 0): the block of program P3 after request 13. -/
def block8 : State := block 8 2 [1, 0, 0, 0]

/-- Width 8, b = 2, every register 0. -/
def blockZero : State := block 8 2 [0, 0, 0, 0]

/-- The same block after FREE. -/
def freed6 : State := { block6 with life := .freed }

/-- The block of vector V69: FAULT = 1 with cause 2. -/
def faulted4 : State :=
  { block4 with
    fault := true, faultCause := .byteOffsetOutOfRange
    rspStatus := 7, rspData0 := 2, rspData1 := 0 }

/-- A property of the next state an answer gives; false of a stop. -/
def next (a : Answer) (p : State → Bool) : Bool :=
  match a with
  | .next t => p t
  | .fault _ => false
  | .refused _ => false

/-- The next state answers with this response. -/
def answers (st : Byte) (d0 d1 : DWord) (t : State) : Bool :=
  t.rspStatus == st && t.rspData0 == d0 && t.rspData1 == d1

/-- The first bytes of STORE. -/
def image (n : Nat) (t : State) : List Byte := (List.range n).map t.loadByte

/-! Well-formedness: each check refuses an ill-formed term (95_test_vectors.md V1 to V7) -/

theorem test_wf_reserved_opcode_low : legalWord 0x00000000 = false := by decide
theorem test_wf_reserved_opcode_high :
    legalWord 0x00000009 = false ∧ legalWord 0x0000000F = false := by decide
theorem test_wf_format_N_reserved :
    legalWord 0x00000012 = false ∧ legalWord 0x80000003 = false := by decide
theorem test_wf_format_I_reserved : legalWord 0x00701041 = false := by decide
theorem test_wf_request_refused : (Asm.word 0x00000010).wellFormed = false := by decide
theorem test_wf_lowest_init_word : legalWord 0x00000001 = true := by decide
theorem test_wf_instr : (Instr.init 5 64 false false).wellFormed = true := by decide

/-! Decoding: words written out bit by bit from 30_encoding.md R73 to R78 and R85 -/

theorem test_decode_init :
    decode (Asm.word 0b0000000000_1_1_00001011_00000110_0001) = .ok (.init 6 11 true true) := by decide
theorem test_decode_init_no_target :
    decode (Asm.word 0b0000000000_1_0_00000010_00001000_0001) = .ok (.init 8 2 false true) := by decide
theorem test_decode_init_no_hash :
    decode (Asm.word 0b0000000000_0_1_00000010_00001000_0001) = .ok (.init 8 2 true false) := by decide
theorem test_decode_init_bad_width :
    decode (Asm.word 0b0000000000_1_1_00000100_00000101_0001) = .ok (.init 5 4 true true) := by decide
theorem test_decode_init_worked :
    decode (Asm.word 0x00340081) = .ok (Asm.init 8 64) := by decide
theorem test_decode_add :
    decode ⟨0b0000000000000000000000000000_0010, 0, Asm.hash 1 [0x04, 0x00]⟩ =
      .ok (.add (Asm.hash 1 [0x04, 0x00])) := by decide
/-- R84: the rank bytes of ADDK at k = 10 and 16 of width 4, k = 42 of width 6, k = 133 of width 8. -/
theorem test_asm_rank_bytes :
    Asm.rankBytes 4 10 = [0x00, 0x02] ∧ Asm.rankBytes 4 16 = [0, 0] ∧
    Asm.rankBytes 6 42 = [0, 0, 0, 0, 0, 0x02, 0, 0] ∧
    Asm.rankBytes 8 133 = List.replicate 16 0 ++ [0x10] ++ List.replicate 15 0 := by decide +kernel
theorem test_decode_count : decode (Asm.word 0b0011) = .ok .count := by decide
theorem test_decode_free : decode (Asm.word 0b0100) = .ok .free := by decide
theorem test_decode_rget :
    decode ⟨0b0101, 0xFFFFFFFFFFFFFFFF, hashZero⟩ = .ok (.rget 0xFFFFFFFFFFFFFFFF) := by decide
theorem test_decode_rdbyte : decode ⟨0b0110, 3, hashZero⟩ = .ok (.rdbyte 3) := by decide
theorem test_decode_extract :
    decode ⟨0b0111, 9, Asm.hash 6 [1]⟩ = .ok (.extract (Asm.hash 6 [1])) := by decide
theorem test_decode_rdcfg : decode (Asm.word 0b1000) = .ok .rdcfg := by decide
theorem test_decode_reserved_opcode :
    decode (Asm.word 0x0000000F) = .error (.reservedOpcode 0xF) := by decide
theorem test_decode_reserved_bit :
    decode (Asm.word 0x00701041) = .error (.reservedBits 1) := by decide
/-- ARG follows CMD and HASH_IN follows ARG in the table's numbering of bits. -/
theorem test_decode_table_word :
    decodeTableWord 416 (0x5 + 2 ^ 32 * 7) = some (.rget 7) ∧
    decodeTableWord 416 (0x2 + 2 ^ 96 * 0xCDEF) =
      some (.add (Asm.hash 0xCDEF [])) := by decide +kernel

/-! INIT -/

/-- V56: INIT 6, 2 in FREED starts a new lifetime with the image zero. -/
theorem test_init_new_lifetime :
    next (exec (.init 6 2 true true) freed6)
      (fun t => answers 0 0 0 t && t.life == .active && image 4 t == [0, 0, 0, 0]) = true := by
  decide

/-- V42: an image of 1537 bytes does not fit in 16. V47 to V49: the order of the checks. -/
theorem test_init_status_order :
    next (exec (.init 6 11 true true) block4) (answers 5 0 0) = true ∧
    next (exec (.init 5 64 false false) block4) (answers 1 0 0) = true ∧
    next (exec (.init 5 64 true false) block4) (answers 2 0 0) = true ∧
    next (exec (.init 8 64 true false) block4) (answers 3 0 0) = true ∧
    next (exec (.init 8 2 true false) block4) (answers 4 0 0) = true := by decide

/-! ADD -/

/-- V12, its third ADD: rank 42 into register 2 of (5, 63, 0, 17), across two bytes. -/
theorem test_add_width_6_middle :
    next (exec (.add (Asm.hash 2 [0, 0, 0, 0, 0, 2, 0, 0])) (block 6 2 [0xC5, 0x0F, 0x44, 0x00]))
      (fun t => answers 0 0 0 t && image 4 t == [0xC5, 0xAF, 0x46, 0x00]) = true := by decide

/-- V19: rank 2 leaves 3; rank 16 saturates to 15. -/
theorem test_add_monotone_saturating :
    next (exec (Asm.addK 4 0 2) block4) (fun t => image 1 t == [0xF3]) = true ∧
    next (exec (Asm.addK 4 0 16) block4) (fun t => image 1 t == [0xFF]) = true := by decide

/-! COUNT -/

/-- V38d: registers (3, 15), the raw branch: 21.530743470832316. -/
theorem test_count_raw :
    next (exec .count block4) (answers 0 0x403587DECDD9CA53 0) = true := by decide +kernel

/-- V32: registers (1, 0, 0, 0), the linear branch: 4 ln(4/3). -/
theorem test_count_linear :
    next (exec .count block8) (answers 0 0x3FF269621134DB92 0) = true := by decide +kernel

/-! FREE -/

/-- V55: the configuration is kept. -/
theorem test_free_active :
    next (exec .free block6)
      (fun t => answers 0 0 0 t && t.life == .freed && t.cfgR == 6 && t.cfgB == 2) = true := by
  decide

/-- V65: DoubleFree. -/
theorem test_free_freed :
    next (exec .free freed6)
      (fun t => answers 7 4 0 t && t.fault && t.faultCause == .doubleFree) = true := by decide

/-! RGET -/

/-- P2, request 10: register 2 of (5, 63, 42, 17). -/
theorem test_rget_middle : next (exec (.rget 2) block6) (answers 0 42 0) = true := by decide

/-- V66, V67: m and the largest ARG are out of range. -/
theorem test_rget_out_of_range :
    next (exec (.rget 2) block4) (fun t => answers 7 1 0 t && t.fault) = true ∧
    next (exec (.rget 0xFFFFFFFFFFFFFFFF) block4) (fun t => answers 7 1 0 t && t.fault) = true := by
  decide

/-! RDBYTE -/

/-- P2, requests 8 and 9: the last data byte and the pad byte. -/
theorem test_rdbyte_last_and_pad :
    next (exec (.rdbyte 2) block6) (answers 0 0x46 0) = true ∧
    next (exec (.rdbyte 3) block6) (answers 0 0 0) = true := by decide

/-- V68: offset 1 with L = 1. -/
theorem test_rdbyte_out_of_range :
    next (exec (.rdbyte 1) block4) (fun t => answers 7 2 0 t && t.fault) = true := by decide

/-! EXTRACT -/

/-- P2, request 11: only the hidden bit set. -/
theorem test_extract_hidden_bit :
    next (exec (.extract (Asm.hash 0xFFFFFFFFFFFFFFFF [0, 0, 0, 0, 0, 0, 0, 0x80])) block6)
      (answers 0 3 0x003F0040) = true := by decide

/-- V29f: width 8, word 2, bit 4: rank 133, by both forms of the scan. -/
theorem test_extract_word_scan :
    next (exec (.extract (Asm.hash 0 (List.replicate 16 0 ++ [0x10]))) block8)
      (answers 0 0 0x00850085) = true ∧
    wordScanRank (Asm.hash 0 (List.replicate 16 0 ++ [0x10])) = 133 := by decide +kernel

/-! RDCFG -/

/-- V53 with width 6: CFG_B, CFG_R and STATE, and CAP_BYTES. -/
theorem test_rdcfg_active : next (exec .rdcfg block6) (answers 0 0x08020601 0x10) = true := by
  decide

/-- V55: STATE 2 after FREE. -/
theorem test_rdcfg_freed : next (exec .rdcfg freed6) (answers 0 0x08020602 0x10) = true := by
  decide

/-! The step -/

/-- V7: an illegal word is answered (6, 0, 0) and is not sticky. -/
theorem test_step_illegal :
    next (step (block4.withRequest (Asm.word 0x00701041)))
      (fun t => answers 6 0 0 t && !t.fault && t.cfgB == 1 && image 1 t == [0xF3]) = true := by
  decide

/-- V69: a faulted block answers every request alike. -/
theorem test_step_faulted :
    next (step (faulted4.withRequest (Asm.word 0x00000000))) (answers 7 2 0) = true ∧
    next (step (faulted4.withRequest (Asm.word 0x00300081))) (answers 7 2 0) = true := by
  decide

/-- V70: the reset input clears the fault. -/
theorem test_step_reset :
    next (step (issue faulted4 [.reset])) (fun t => answers 0 0 0 t && !t.fault && t.life == .uninit) =
      true := by decide

/-- V52: RDCFG is the first command after reset; V61: COUNT in UNINIT. -/
theorem test_first_step_after_reset :
    next (step (State.reset.withFetchWord 32 8)) (fun t => t.rspData0 == 0x08000000) = true ∧
    next (step (State.reset.withFetchWord 32 3)) (answers 0 0x7FF8000000000000 0) = true := by
  decide

/-! The estimator's arithmetic -/

/-- V31: 2 ln 2. -/
theorem test_lincount : lincount 2 1 = 0x3FF62E42FEFA39EF := by decide +kernel

/-- V38e: E = 673 * 2^64 / (125 * 288300744897986561); V38b: the largest estimate of b = 0. -/
theorem test_rne64 :
    rne64 ⟨673 * 2 ^ 64, 125 * 288300744897986561⟩ = 0x407587DECDD91E1F ∧
    rne64 ⟨673 * 2 ^ 255, 1000⟩ = 0x4FD589374BC6A7F0 := by decide +kernel

/-! Witnesses: a state and operands that meet the hypotheses of each statement -/

/-- Hypotheses `Ready`: width 4 at b = BMIN, width 6, and width 8 at b = 2. -/
theorem witness_ready :
    Ready block4 ⟨.w4, 1⟩ ∧ Ready block6 ⟨.w6, 2⟩ ∧ Ready block8 ⟨.w8, 2⟩ := by decide

/-- The least and the largest configuration: width 8 with b = 0, and an image that fills CAP_BYTES. -/
theorem witness_ready_bounds :
    Ready (block 8 0 [0]) ⟨.w8, 0⟩ ∧ Ready (block 8 4 (List.replicate 16 0)) ⟨.w8, 4⟩ := by decide

/-- DecodedWordEncodesBack, LegalWordsExactly (second clause). -/
theorem witness_decoded : decode (Asm.word 0x00000008) = .ok .rdcfg := by decide

/-- LegalWordsExactly, first and third clause: a row that matches. -/
theorem witness_row_matches :
    (⟨"INIT", 0x00000001#32, 0xFFC0000F#32⟩ : LegalRow) ∈ legalRows ∧
    (⟨"INIT", 0x00000001#32, 0xFFC0000F#32⟩ : LegalRow).matches 0x003FFFF1 = true := by decide

/-- IllegalWordsAnsweredAndHarmless, at the boundaries of each way to be illegal: OP 0, 9 and 15, the
lowest and the highest reserved bit of format I, and of format N. -/
theorem witness_illegal :
    (∃ e, decode (Asm.word 0x00000000) = .error e) ∧ (∃ e, decode (Asm.word 0x00000009) = .error e) ∧
    (∃ e, decode (Asm.word 0x0000000F) = .error e) ∧ (∃ e, decode (Asm.word 0x00400001) = .error e) ∧
    (∃ e, decode (Asm.word 0x80000001) = .error e) ∧ (∃ e, decode (Asm.word 0x00000012) = .error e) ∧
    (∃ e, decode (Asm.word 0x80000008) = .error e) :=
  ⟨⟨_, rfl⟩, ⟨_, rfl⟩, ⟨_, rfl⟩, ⟨_, rfl⟩, ⟨_, rfl⟩, ⟨_, rfl⟩, ⟨_, rfl⟩⟩

theorem witness_illegal_step :
    (block4.withRequest (Asm.word 0x00000012)).nextInput? = some (.request (Asm.word 0x00000012)) ∧
    decode (Asm.word 0x00000012) = .error (.reservedBits 2) ∧
    (block4.withRequest (Asm.word 0x00000012)).fault = false := by decide

/-- UnusedPortsIgnored, first clause: COUNT with two different ARGs and hash buffers. -/
theorem witness_unused_ports :
    (opField (Asm.word 3).cmd = 5 ∨ opField (Asm.word 3).cmd = 6 → (0 : DWord) = 7) ∧
    (opField (Asm.word 3).cmd = 2 ∨ opField (Asm.word 3).cmd = 7 → hashZero = Asm.hash 1 []) := by
  decide

/-- UnusedPortsIgnored, second clause: at width 4 two buffers that differ in byte HL(4) = 10. -/
theorem witness_unused_hash_bytes :
    (∀ j, j < Width.w4.hashLen →
      (Asm.hash 5 [1, 2, 3]).toList[j]? = (Asm.hash 5 [1, 2, 4]).toList[j]?) ∧
    Asm.hash 5 [1, 2, 3] ≠ Asm.hash 5 [1, 2, 4] := by decide

/-- StepRunsDecodedCommand. -/
theorem witness_step_runs :
    (block6.withRequest (Asm.word 3)).nextInput? = some (.request (Asm.word 3)) ∧
    decode (Asm.word 3) = .ok .count := by decide

/-- IdleBlockKeepsState. -/
theorem witness_idle : block4.nextInput? = none := by decide

/-- PositionAdvancesByOne, both clauses. -/
theorem witness_position :
    (issue block4 [.reset]).nextInput? = some .reset ∧
    step (issue block4 [.reset]) = .next (issue block4 [.reset]).takeReset.advance ∧
    exec .rdcfg block4 = .next (block4.respond .ok (configWord block4) 16) := ⟨rfl, rfl, rfl⟩

/-- FaultMasksEveryRequest, FaultStickyUntilReset. -/
theorem witness_faulted :
    faulted4.fault = true ∧
    (faulted4.withRequest (Asm.word 0)).nextInput? = some (.request (Asm.word 0)) ∧
    exec .count faulted4 = .next faulted4.respondFaulted := ⟨rfl, rfl, rfl⟩

/-- FaultStickyUntilReset, second clause: the step that leaves the fault. -/
theorem witness_fault_left :
    step (issue faulted4 [.reset]) = .next (issue faulted4 [.reset]).takeReset.advance ∧
    (issue faulted4 [.reset]).takeReset.advance.fault = false := ⟨rfl, rfl⟩

/-- ResetInputClearsEverything. -/
theorem witness_reset_input : (issue faulted4 [.reset]).nextInput? = some .reset := by decide

/-- GateInUninit. -/
theorem witness_uninit : (State.resetWith 16).fault = false ∧ (State.resetWith 16).life = .uninit := by
  decide

/-- GateInFreed. -/
theorem witness_freed : freed6.fault = false ∧ freed6.life = .freed := by decide

/-- FaultsExactlyOnViolations: a violation of each cause, at the boundary, and no violation just below
it. -/
theorem witness_violations :
    (block4.life = .active → block4.config?.isSome = true) ∧
    violation (.rget 2) block4 = .indexOutOfRange ∧ violation (.rget 1) block4 = .none ∧
    violation (.rdbyte 1) block4 = .byteOffsetOutOfRange ∧ violation (.rdbyte 0) block4 = .none ∧
    violation .count freed6 = .useAfterFree ∧ violation .free freed6 = .doubleFree ∧
    violation .rdcfg freed6 = .none := by decide

/-- StatusesPerCommand: an answer with status 8, which is neither 0 nor 7. -/
theorem witness_status_not_initialized :
    exec (.rget 0) (State.resetWith 16) = .next ((State.resetWith 16).respond .notInitialized 0 0) ∧
    ((State.resetWith 16).respond .notInitialized 0 0).rspStatus.toNat = 8 := ⟨rfl, rfl⟩

/-- InitRejectsInOrder, a boundary value for each clause: width 5; b = 0 and b = 64 at width 4; b = 1 at
width 6; b = 5 with 16 bytes at width 8, one more than fits. -/
theorem witness_init_rejects :
    block4.fault = false ∧
    ¬ ((5 : Byte) = 4 ∨ (5 : Byte) = 6 ∨ (5 : Byte) = 8) ∧
    (0 : Byte).toNat < 1 ∧ 64 ≤ (64 : Byte).toNat ∧ (1 : Byte).toNat < 2 ∧ (63 : Byte).toNat < 64 ∧
    block4.capBytes.toNat < 2 ^ (5 : Byte).toNat := by decide

/-- InitSucceeds: the least b of each width, and an image that just fits. -/
theorem witness_init_succeeds :
    block4.fault = false ∧
    (Width.ofField 4 = some .w4 ∧ Width.w4.bMin ≤ (1 : Byte).toNat ∧
      Width.w4.imageLen 1 ≤ block4.capBytes.toNat) ∧
    (Width.ofField 6 = some .w6 ∧ Width.w6.bMin ≤ (2 : Byte).toNat ∧
      Width.w6.imageLen 2 ≤ block4.capBytes.toNat) ∧
    (Width.ofField 8 = some .w8 ∧ Width.w8.bMin ≤ (0 : Byte).toNat ∧
      Width.w8.imageLen 4 ≤ block4.capBytes.toNat) := by decide

/-- InitLeavesZeroRegisters: an INIT that responds OK. -/
theorem witness_init_ok :
    freed6.fault = false ∧
    next (exec (.init 6 2 true true) freed6) (fun t => t.rspStatus == 0) = true := by decide

/-- AddFrame, AddIdempotent: ADD answers a next state; WritersOfStore: it changes a byte. -/
theorem witness_add :
    next (exec (Asm.addK 4 0 16) block4) (fun t => image 1 t != image 1 block4) = true := by decide

/-- CountComputesTheEstimate: a state in each branch. Registers (3, 15), raw; (1, 0, 0, 0), linear with an
empty register; (1, 1, 1, 1), linear with none. -/
theorem witness_count_branches :
    smallRange 1 (block4.rawEstimate ⟨.w4, 1⟩) = false ∧
    smallRange 2 (block8.rawEstimate ⟨.w8, 2⟩) = true ∧ block8.emptyRegs ⟨.w8, 2⟩ = 3 ∧
    smallRange 2 ((block 8 2 [1, 1, 1, 1]).rawEstimate ⟨.w8, 2⟩) = true ∧
    (block 8 2 [1, 1, 1, 1]).emptyRegs ⟨.w8, 2⟩ = 0 := by decide +kernel

/-- CountOfFreshImageIsZero. -/
theorem witness_fresh :
    Ready blockZero ⟨.w8, 2⟩ ∧ ∀ i, i < 4 → blockZero.getReg .w8 i = 0 := by decide

/-- CountNeverNaN, second clause: COUNT answers a NaN in UNINIT. -/
theorem witness_nan :
    next (exec .count (State.resetWith 16)) (fun t => isNaN t.rspData0) = true := by decide

/-- CountTwiceSameAnswer, InspectionFrame: each inspection command answers a next state. -/
theorem witness_inspection :
    next (exec .count freed6) (fun t => t.fault) = true ∧
    next (exec (.rget 3) block6) (fun t => !t.fault) = true ∧
    next (exec (.rdbyte 3) block6) (fun t => !t.fault) = true ∧
    next (exec (.extract hashZero) block6) (fun t => !t.fault) = true ∧
    next (exec .rdcfg block6) (fun t => !t.fault) = true := by decide

theorem witness_count_next :
    next (exec .count blockZero) (fun t => t.rspStatus == 0) = true := by decide +kernel

/-- RoundingIsNearestEven: a rational that is no binary64 number, and a tie. -/
theorem witness_rounding :
    (0 < (⟨1, 3⟩ : Frac).den ∧ (1 : Nat) < 2 ^ 1 * 3) ∧
    roundBits ⟨2 ^ 53 + 1, 1⟩ = roundBits ⟨2 ^ 53, 1⟩ ∧ roundBits ⟨2 ^ 53, 1⟩ % 2 = 0 := by
  decide +kernel

/-- The bound of RoundingIsNearestEven holds of every rational below 2. -/
theorem witness_rounding_bound (num den : Nat) (h : num < 2 * den) :
    num < 2 ^ (minExp + 1) * den :=
  h.trans_le (Nat.mul_le_mul_right _ (by
    rw [Nat.pow_succ]
    have := Nat.two_pow_pos minExp
    omega))

/-- LincountIsEnclosed, LincountIsCorrectlyRounded, LincountNonIncreasing: z = 1 and z = m - 1. -/
theorem witness_lincount :
    (1 ≤ 1 ∧ 1 < 2 ∧ lincountSettles 2 1 5 24 = true) ∧
    (1 ≤ 3 ∧ 3 < 4 ∧ lincountSettles 4 3 5 24 = true) := by decide +kernel

/-- RgetReturnsRegister, RdbyteReturnsByte, RangeFaults: the last index and offset, and the first beyond
them. -/
theorem witness_ranges :
    (3 : DWord).toNat < 2 ^ 2 ∧ 2 ^ 2 ≤ (4 : DWord).toNat ∧
    (3 : DWord).toNat < (⟨.w6, 2⟩ : ActiveConfig).imageLen ∧
    (⟨.w6, 2⟩ : ActiveConfig).imageLen ≤ (4 : DWord).toNat := by decide

/-- WritersOfTheConfiguration: FREE and INIT change STATE, INIT changes CFG_B. -/
theorem witness_configuration_written :
    next (exec .free block6) (fun t => t.life != block6.life) = true ∧
    next (exec (.init 6 2 true true) freed6) (fun t => t.life != freed6.life) = true ∧
    next (exec (.init 4 2 true true) block4) (fun t => t.cfgB != block4.cfgB) = true := by decide

/-- RankIsLowestSetBit: the lowest 1 bit at the highest position that counts, N - 2 = 14, and no
1 bit below N - 1. -/
theorem witness_rank :
    ((rankField .w4 (Asm.hash 0 [0x00, 0x40])).testBit 14 = true ∧
      ∀ j, j < 14 → (rankField .w4 (Asm.hash 0 [0x00, 0x40])).testBit j = false) ∧
    ∀ p, p < 15 → (rankField .w4 (Asm.hash 0 [0x00, 0x80])).testBit p = false := by decide

/-- GuardHidesTheTopBit: two buffers that differ in bit 7 of byte 9 alone. -/
theorem witness_guard :
    (∀ j, j < Width.w4.rankBytes - 1 →
      (Asm.hash 0 [4, 0x01]).toList.getD (8 + j) 0 = (Asm.hash 0 [4, 0x81]).toList.getD (8 + j) 0) ∧
    ((Asm.hash 0 [4, 0x01]).toList.getD 9 0).extractLsb' 0 7 =
      ((Asm.hash 0 [4, 0x81]).toList.getD 9 0).extractLsb' 0 7 := by decide

/-- RegisterReadAfterWrite, ZeroRegistersZeroBytes, AccessStaysInsideImage: the largest value, the least b
and the largest index of each width. -/
theorem witness_register :
    ((15 : Byte).toNat < 2 ^ Width.w4.bits ∧ Width.w4.bMin ≤ 1 ∧ 1 < 2 ^ 1) ∧
    ((63 : Byte).toNat < 2 ^ Width.w6.bits ∧ Width.w6.bMin ≤ 2 ∧ 3 < 2 ^ 2) ∧
    ((255 : Byte).toNat < 2 ^ Width.w8.bits ∧ Width.w8.bMin ≤ 0 ∧ 0 < 2 ^ 0) := by decide

/-- AccessStaysInsideImage, second clause: two states that agree on the accessed bytes alone. -/
theorem witness_access :
    ∀ a, Width.w8.byteIndex 0 ≤ a → a < Width.w8.byteIndex 0 + Width.w8.accessBytes →
      block8.loadByte a = (block 8 2 [1, 7, 0, 0]).loadByte a := by
  intro a h0 h1
  obtain rfl : a = 0 := by
    simp only [Width.byteIndex, Width.accessBytes] at h0 h1
    omega
  decide

/-- RegistersBoundedAndMonotone, second clause: ADD, and an INIT that fails, from a state with a
configuration. -/
theorem witness_monotone :
    mnemonic (Asm.addK 4 0 16) ≠ "INIT" ∧ block4.config? = some ⟨.w4, 1⟩ ∧
    next (exec (Asm.addK 4 0 16) block4) (fun t => decide (t.getReg .w4 0 = 15)) = true ∧
    next (exec (.init 5 1 true true) block4) (fun t => t.rspStatus != 0) = true := by decide

/-- EveryStepKeepsInvariant, EveryStepAnswers, OneResponsePerRequest, RunReportsFaultOutcome: the
invariant holds of an ACTIVE block, of a freed and of a faulted one. -/
theorem witness_invariant_active : Inv block6 := by decide

theorem witness_invariant_freed : Inv freed6 := by decide

theorem witness_invariant_faulted : Inv faulted4 := by decide

/-- EveryStepKeepsInvariant, StoreStaysCanonical: a step from such a state answers. -/
theorem witness_invariant_step :
    Inv (block4.withRequest (Asm.word 3)) ∧
    Store.wf (block4.withRequest (Asm.word 3)).store = true ∧
    next (step (block4.withRequest (Asm.word 4))) (fun t => t.life == .freed) = true := by decide

/-- RunReportsFaultOutcome: a run that ends with FAULT = 1 and one that does not. -/
theorem witness_run_outcome :
    next (runFor 1 (issue block4 [.request (encode (.rget 2))])) (fun t => t.fault) = true ∧
    next (runFor 1 (issue block4 [.request (encode (.rget 1))])) (fun t => !t.fault) = true := by decide

/-- HiddenBytesNeverObserved: two different states that differ in a byte beyond the image. -/
theorem witness_indistinguishable :
    Indistinguishable block4 { block4 with store := [(0, 0xF3), (5, 9)] } ∧
    block4 ≠ { block4 with store := [(0, 0xF3), (5, 9)] } := by decide

end Sys2Proof.Tests
end

section
/-! The command word's fields and formats (30_encoding.md R72 to R75). -/

namespace Sys2Proof

/-- Two words put together from parts of the same widths are equal only part by part. -/
theorem word_append_inj {v w : Nat} {x x' : BitVec v} {y y' : BitVec w} :
    x ++ y = x' ++ y' ↔ x = x' ∧ y = y' := by
  constructor
  · intro h
    exact ⟨by simpa only [BitVec.extractLsb'_append_eq_left] using congrArg (·.extractLsb' w v) h,
      by simpa only [BitVec.extractLsb'_append_eq_right] using congrArg (·.extractLsb' 0 w) h⟩
  · rintro ⟨rfl, rfl⟩
    rfl

/-- A single bit of a word, as the field of width 1 there. -/
theorem ofBool_getLsbD (w : Word) (p : Nat) : BitVec.ofBool (w.getLsbD p) = w.extractLsb' p 1 := by
  ext i hi
  obtain rfl : i = 0 := by omega
  simp

/-- Every bit of a word lies in one field of format N (30_encoding.md R74). -/
theorem formatN_fields (w : Word) : rsvN w ++ opField w = w := by
  unfold rsvN opField
  rw [BitVec.extractLsb'_append_extractLsb'_eq_extractLsb' (by rfl)]
  exact BitVec.extractLsb'_eq_self

/-- Every bit of a word lies in one field of format I (30_encoding.md R73). -/
theorem formatI_fields (w : Word) :
    rsvI w ++ BitVec.ofBool (hvField w) ++ BitVec.ofBool (tvField w) ++ beField w ++ rwField w ++
      opField w = w := by
  unfold rsvI hvField tvField beField rwField opField
  simp only [ofBool_getLsbD]
  iterate 5 rw [BitVec.extractLsb'_append_extractLsb'_eq_extractLsb' (by rfl)]
  exact BitVec.extractLsb'_eq_self

/-- A word as format I's reserved bits, its operand bits in one piece, and OP (30_encoding.md R73). -/
theorem rsvI_append_operands_append_opField (w : Word) :
    rsvI w ++ w.extractLsb' 4 18 ++ opField w = w := by
  unfold rsvI opField
  iterate 2 rw [BitVec.extractLsb'_append_extractLsb'_eq_extractLsb' (by rfl)]
  exact BitVec.extractLsb'_eq_self

section
variable (rw be : Byte) (tv hv : Bool)

@[simp] theorem opField_encodeWord_init : opField (encodeWord (.init rw be tv hv)) = 1 :=
  BitVec.extractLsb'_append_eq_right

@[simp] theorem rwField_encodeWord_init : rwField (encodeWord (.init rw be tv hv)) = rw := by
  unfold rwField encodeWord
  rw [BitVec.extractLsb'_append_eq_of_le (by decide)]
  exact BitVec.extractLsb'_append_eq_right

@[simp] theorem beField_encodeWord_init : beField (encodeWord (.init rw be tv hv)) = be := by
  unfold beField encodeWord
  iterate 2 rw [BitVec.extractLsb'_append_eq_of_le (by decide)]
  exact BitVec.extractLsb'_append_eq_right

@[simp] theorem tvField_encodeWord_init : tvField (encodeWord (.init rw be tv hv)) = tv := by
  unfold tvField encodeWord
  simp only [BitVec.getLsbD_append]
  simp

@[simp] theorem hvField_encodeWord_init : hvField (encodeWord (.init rw be tv hv)) = hv := by
  unfold hvField encodeWord
  simp only [BitVec.getLsbD_append]
  simp

@[simp] theorem rsvI_encodeWord_init : rsvI (encodeWord (.init rw be tv hv)) = 0 := by
  unfold rsvI encodeWord
  iterate 4 rw [BitVec.extractLsb'_append_eq_of_le (by decide)]
  exact BitVec.extractLsb'_append_eq_left

end

end Sys2Proof
end

section
/-! The decoder, by the three ranges of OP, and the encoder it undoes (30_encoding.md R72 to R77). -/

namespace Sys2Proof

variable {q q' : Request} {i j : Instr} {w : Word}

theorem formatN_of_rsvN_eq_zero (h : rsvN w = 0) : formatN w i = .ok i := if_pos h

theorem formatN_eq_ok : formatN w i = .ok j ↔ rsvN w = 0 ∧ i = j := by
  unfold formatN
  split <;> simp_all

theorem formatN_eq_error : (∃ e, formatN w i = .error e) ↔ rsvN w ≠ 0 := by
  unfold formatN
  split <;> simp_all

theorem formatI_eq_ok :
    formatI w = .ok j ↔
      rsvI w = 0 ∧ .init (rwField w) (beField w) (tvField w) (hvField w) = j := by
  unfold formatI
  split <;> simp_all

theorem formatI_eq_error : (∃ e, formatI w = .error e) ↔ rsvI w ≠ 0 := by
  unfold formatI
  split <;> simp_all

/-- OP selects INIT, a format-N command, or nothing (30_encoding.md R76). -/
theorem opField_cases (w : Word) :
    opField w = 1 ∨ (2 ≤ (opField w).toNat ∧ (opField w).toNat ≤ 8) ∨
      opField w = 0 ∨ 9 ≤ (opField w).toNat := by
  bv_omega

theorem decode_of_opField_init (h : opField q.cmd = 1) : decode q = formatI q.cmd := by
  simp [decode, h]

/-- OP 2 to 8 selects a command whose word is OP with every reserved bit 0 (30_encoding.md R74, R76). -/
theorem decode_of_opField_formatN (h2 : 2 ≤ (opField q.cmd).toNat)
    (h8 : (opField q.cmd).toNat ≤ 8) :
    ∃ i, decode q = formatN q.cmd i ∧ encodeWord i = 0#28 ++ opField q.cmd := by
  have hop : opField q.cmd = 2 ∨ opField q.cmd = 3 ∨ opField q.cmd = 4 ∨ opField q.cmd = 5 ∨
      opField q.cmd = 6 ∨ opField q.cmd = 7 ∨ opField q.cmd = 8 := by bv_omega
  unfold decode
  rcases hop with h | h | h | h | h | h | h
  all_goals
    rw [h]
    exact ⟨_, rfl, rfl⟩

theorem decode_of_opField_reserved (h : opField q.cmd = 0 ∨ 9 ≤ (opField q.cmd).toNat) :
    decode q = .error (.reservedOpcode (opField q.cmd)) := by
  unfold decode
  split
  case h_9 => rfl
  all_goals exfalso; bv_omega

/-- A command read from a word encodes to that word (30_encoding.md R72 to R76). -/
theorem encodeWord_of_decode (h : decode q = .ok i) : encodeWord i = q.cmd := by
  rcases opField_cases q.cmd with hop | ⟨h2, h8⟩ | hop
  · rw [decode_of_opField_init hop, formatI_eq_ok] at h
    obtain ⟨hrsv, rfl⟩ := h
    conv_rhs => rw [← formatI_fields q.cmd, hrsv, hop]
    rfl
  · obtain ⟨j, hj, hword⟩ := decode_of_opField_formatN h2 h8
    rw [hj, formatN_eq_ok] at h
    obtain ⟨hrsv, rfl⟩ := h
    conv_rhs => rw [← formatN_fields q.cmd, hrsv]
    exact hword
  · rw [decode_of_opField_reserved hop] at h
    cases h

/-- Decoding undoes encoding: format I's fields hold the operands of INIT, and the other commands'
operands travel in ARG and HASH_IN as they are (30_encoding.md R73 to R76). -/
theorem decode_encode (i : Instr) : decode (encode i) = .ok i := by
  cases i with
  | init rw be tv hv =>
    rw [decode_of_opField_init (opField_encodeWord_init rw be tv hv), formatI_eq_ok]
    simp [encode]
  | add | count | free | rget | rdbyte | extract | rdcfg =>
    exact formatN_of_rsvN_eq_zero BitVec.extractLsb'_append_eq_left

/-- Two requests with one command word decode alike where they agree on the port that word uses
(30_encoding.md R79). -/
theorem decode_congr (hcmd : q.cmd = q'.cmd)
    (harg : opField q.cmd = 5 ∨ opField q.cmd = 6 → q.arg = q'.arg)
    (hhash : opField q.cmd = 2 ∨ opField q.cmd = 7 → q.hashIn = q'.hashIn) :
    decode q = decode q' := by
  unfold decode
  rw [← hcmd]
  split
  case h_2 h | h_7 h => rw [hhash (by bv_omega)]
  case h_5 h | h_6 h => rw [harg (by bv_omega)]
  all_goals rfl

/-- Which words are illegal (30_encoding.md R77). -/
theorem decode_eq_error_iff :
    (∃ e, decode q = .error e) ↔
      (opField q.cmd = 0 ∨ 9 ≤ (opField q.cmd).toNat ∨
        (opField q.cmd = 1 ∧ rsvI q.cmd ≠ 0) ∨
        (2 ≤ (opField q.cmd).toNat ∧ (opField q.cmd).toNat ≤ 8 ∧ rsvN q.cmd ≠ 0)) := by
  rcases opField_cases q.cmd with hop | ⟨h2, h8⟩ | hop
  · rw [decode_of_opField_init hop, formatI_eq_error]
    simp [hop]
  · obtain ⟨i, hi, -⟩ := decode_of_opField_formatN h2 h8
    rw [hi, formatN_eq_error]
    constructor
    · exact fun h => .inr (.inr (.inr ⟨h2, h8, h⟩))
    · rintro (h | h | ⟨h, -⟩ | ⟨-, -, h⟩)
      case inr.inr.inr => exact h
      all_goals exfalso; bv_omega
  · exact iff_of_true ⟨_, decode_of_opField_reserved hop⟩ (hop.imp_right .inl)

end Sys2Proof
end

section
/-! The table of legal command words (30_encoding.md R78). -/

namespace Sys2Proof

open Sys2Proof.Safety

variable {q : Request} {w : Word}

/-- INIT's mask keeps OP and the reserved bits, and clears the operands (30_encoding.md R73, R78). -/
theorem and_formatI_mask (w : Word) : w &&& 0xFFC0000F#32 = rsvI w ++ 0#18 ++ opField w := by
  calc w &&& 0xFFC0000F#32
      = (rsvI w ++ w.extractLsb' 4 18 ++ opField w) &&&
          (BitVec.allOnes 10 ++ 0#18 ++ BitVec.allOnes 4) := by
        rw [rsvI_append_operands_append_opField]; rfl
    _ = rsvI w ++ 0#18 ++ opField w := by
        rw [BitVec.and_append, BitVec.and_append, BitVec.and_zero, BitVec.and_allOnes,
          BitVec.and_allOnes]

theorem matches_init_iff :
    LegalRow.matches ⟨"INIT", 0x00000001#32, 0xFFC0000F#32⟩ w = true ↔
      rsvI w = 0 ∧ opField w = 1 := by
  rw [LegalRow.matches, beq_iff_eq, and_formatI_mask]
  calc rsvI w ++ 0#18 ++ opField w = 0x00000001#32
      ↔ rsvI w ++ 0#18 ++ opField w = 0#10 ++ 0#18 ++ 1#4 := Iff.rfl
    _ ↔ rsvI w = 0 ∧ opField w = 1 := by
        rw [word_append_inj, word_append_inj]
        simp

theorem matches_formatN_iff {name : String} {pattern : Word} :
    LegalRow.matches ⟨name, pattern, 0xFFFFFFFF#32⟩ w = true ↔ w = pattern := by
  rw [LegalRow.matches, beq_iff_eq]
  exact Eq.congr_left BitVec.and_allOnes

/-- A mnemonic names one row of the table. -/
theorem eq_of_mnemonic_eq :
    ∀ row ∈ legalRows, ∀ row' ∈ legalRows, row.mnemonic = row'.mnemonic → row = row' := by
  decide

/-- A command's word matches the row of its mnemonic. -/
theorem exists_row_matches_encodeWord (i : Instr) :
    ∃ row ∈ legalRows, row.mnemonic = mnemonic i ∧ row.matches (encodeWord i) = true := by
  cases i with
  | init rw be tv hv => exact ⟨⟨"INIT", _, _⟩, .head _, rfl, matches_init_iff.2 (by simp)⟩
  | add | count | free | rget | rdbyte | extract | rdcfg =>
    simp [legalRows, mnemonic, LegalRow.matches, encodeWord]

/-- A word that matches a row decodes to the command of that row. -/
theorem decode_of_row_matches {row : LegalRow} (hrow : row ∈ legalRows)
    (h : row.matches q.cmd = true) : ∃ i, decode q = .ok i ∧ mnemonic i = row.mnemonic := by
  obtain ⟨w, arg, hash⟩ := q
  simp only [legalRows, List.mem_cons, List.not_mem_nil, or_false] at hrow
  rcases hrow with rfl | hrow
  · obtain ⟨hrsv, hop⟩ := matches_init_iff.1 h
    exact ⟨_, (decode_of_opField_init hop).trans (formatI_eq_ok.2 ⟨hrsv, rfl⟩), rfl⟩
  · rcases hrow with rfl | rfl | rfl | rfl | rfl | rfl | rfl
    all_goals
      obtain rfl := matches_formatN_iff.1 h
      exact ⟨_, formatN_of_rsvN_eq_zero (by simp [rsvN]), rfl⟩

/-- A word that decodes matches the row of its command. -/
theorem row_matches_of_decode {i : Instr} (h : decode q = .ok i) :
    ∃ row ∈ legalRows, row.mnemonic = mnemonic i ∧ row.matches q.cmd = true :=
  encodeWord_of_decode h ▸ exists_row_matches_encodeWord i

end Sys2Proof
end

section
/-! What a command reads of HASH_IN, and what an illegal word does (30_encoding.md R77, R79). -/

namespace Sys2Proof.Machine

variable {s : State}

/-- A little-endian field depends only on the bytes below its end (00_scope.md R9). -/
theorem hashLE_congr {h h' : HashIn} {off n m : Nat} (hm : off + n ≤ m)
    (hb : ∀ j, j < m → h.toList[j]? = h'.toList[j]?) : hashLE h off n = hashLE h' off n := by
  unfold hashLE
  congr 1
  refine List.ext_getElem? fun k => ?_
  simp only [List.getElem?_take, List.getElem?_drop]
  split
  · exact hb _ (by omega)
  · rfl

section
variable {c : ActiveConfig} {h h' : HashIn}
  (hb : ∀ j, j < c.width.hashLen → h.toList[j]? = h'.toList[j]?)
include hb

/-- The bucket lies in the first HL(r) hash bytes (41_rank_extractor.md R141). -/
theorem bucket_congr : bucket c h = bucket c h' := by
  unfold bucket indexField
  rw [hashLE_congr (Nat.zero_add _ ▸ Nat.le_add_right _ _) hb]

/-- The rank lies in the first HL(r) hash bytes (41_rank_extractor.md R142, R143). -/
theorem rank_congr : rank c.width h = rank c.width h' := by
  unfold rank guarded rankField
  rw [hashLE_congr le_rfl hb]

end

/-- A command runs alike under two rules that agree at the configuration the state holds. -/
theorem withConfig_congr {run run' : ActiveConfig → Answer}
    (h : ∀ c, s.config? = some c → run c = run' c) : withConfig s run = withConfig s run' := by
  unfold withConfig
  split
  · exact h _ ‹_›
  · rfl

section
variable {h h' : HashIn}
  (hb : ∀ c, s.config? = some c → ∀ j, j < c.width.hashLen → h.toList[j]? = h'.toList[j]?)
include hb

theorem exec_add_congr : exec (.add h) s = exec (.add h') s := by
  have hrun : withConfig s (addActive h s) = withConfig s (addActive h' s) :=
    withConfig_congr fun c hc => by
      rw [addActive, addActive, bucket_congr (hb c hc), rank_congr (hb c hc)]
  simp only [exec, execAdd, hrun]

theorem exec_extract_congr : exec (.extract h) s = exec (.extract h') s := by
  have hrun : withConfig s (extractActive h s) = withConfig s (extractActive h' s) :=
    withConfig_congr fun c hc => by
      rw [extractActive, extractActive, bucket_congr (hb c hc), rank_congr (hb c hc)]
  simp only [exec, execExtract, hrun]

end

/-- A step serves the request that is the host's next input. -/
theorem step_of_request {q : Request} (h : s.nextInput? = some (.request q)) :
    step s = advanceAnswer (serveRequest q s) := by
  simp only [step, serve, h, serveInput]

theorem serveRequest_of_error {q : Request} {e : IllegalWord} (h : decode q = .error e) :
    serveRequest q s = answerIllegal s := by
  simp only [serveRequest, h]

end Sys2Proof.Machine
end

section
/-! The obligations of the encoding. -/

namespace Sys2Proof.Proofs

open Sys2Proof.Machine Sys2Proof.Safety

/-- Settles O1: decoding undoes encoding, command by command. -/
theorem decodeEncodeRoundTrip : Obligations.DecodeEncodeRoundTrip := decode_encode

/-- Settles O3: a row's match decodes to the row's command, and a decoded word matches the row of its
command, which its mnemonic names. -/
theorem legalWordsExactly : Obligations.LegalWordsExactly := by
  refine ⟨fun row hrow q => ⟨decode_of_row_matches hrow, ?_⟩, fun q i h => ?_⟩
  · rintro ⟨i, hi, hname⟩
    obtain ⟨row', hrow', hname', hmatch⟩ := row_matches_of_decode hi
    obtain rfl := eq_of_mnemonic_eq row' hrow' row hrow (hname'.trans hname)
    exact hmatch
  · obtain ⟨row, hrow, -, hmatch⟩ := row_matches_of_decode h
    exact ⟨row, hrow, hmatch⟩

/-- Settles O4: the three ranges of OP say which words are illegal, and an illegal word gets one
response. -/
theorem illegalWordsAnsweredAndHarmless : Obligations.IllegalWordsAnsweredAndHarmless := by
  refine ⟨fun q => decode_eq_error_iff, fun s q e hq he hf => ?_⟩
  rw [step_of_request hq, serveRequest_of_error he, answerIllegal, unlessFaulted_false hf]
  rfl

/-- Settles O6: requests that agree on the port their word uses decode alike, and the bucket and the
rank are read from the first HL(r) bytes of HASH_IN. -/
theorem unusedPortsIgnored : Obligations.UnusedPortsIgnored := by
  constructor
  · intro s q q' hcmd harg hhash
    rw [serveRequest, serveRequest, decode_congr hcmd harg hhash]
  · exact fun s h h' hb => ⟨exec_add_congr hb, exec_extract_congr hb⟩

end Sys2Proof.Proofs
end

section
/-! Registers as numbers: each register is a field of its byte or 32-bit view (40_register_file.md R101 to
R104). -/

namespace Sys2Proof.Machine

/-- The k bits of a word from bit sh on, as a number. -/
theorem shiftRight_and_mask_toNat {n k : Nat} (x : BitVec n) (sh : Nat) (hk : k ≤ n) :
    ((x >>> sh) &&& BitVec.ofNat n (2 ^ k - 1)).toNat = x.toNat / 2 ^ sh % 2 ^ k := by
  have hmask : 2 ^ k - 1 < 2 ^ n :=
    (Nat.sub_lt (Nat.two_pow_pos k) one_pos).trans_le (Nat.pow_le_pow_right two_pos hk)
  rw [BitVec.toNat_and, BitVec.toNat_ushiftRight, BitVec.toNat_ofNat, Nat.mod_eq_of_lt hmask,
    Nat.and_two_pow_sub_one_eq_mod, Nat.shiftRight_eq_div_pow]

/-- A byte put below a word is the low byte of the result. -/
theorem append_byte_toNat {n : Nat} (x : BitVec n) (b : Byte) :
    (x ++ b).toNat = 2 ^ 8 * x.toNat + b.toNat := by
  rw [BitVec.toNat_append, Nat.shiftLeft_eq, Nat.mul_comm, Nat.two_pow_add_eq_or_of_lt b.isLt]

variable (s : State)

/-- The 32-bit view is little-endian (00_scope.md R9, R10). -/
theorem State.loadView_toNat (k : Nat) :
    (s.loadView k).toNat = (s.loadByte k).toNat + 2 ^ 8 * (s.loadByte (k + 1)).toNat +
      2 ^ 16 * (s.loadByte (k + 2)).toNat + 2 ^ 24 * (s.loadByte (k + 3)).toNat := by
  simp only [State.loadView, append_byte_toNat]
  ring

theorem State.getReg_w4_toNat (i : Nat) :
    (s.getReg .w4 i).toNat = (s.loadByte (i / 2)).toNat / 2 ^ (4 * (i % 2)) % 16 :=
  shiftRight_and_mask_toNat (k := 4) _ _ (by decide)

theorem State.getReg_w6_toNat (i : Nat) :
    (s.getReg .w6 i).toNat = (s.loadView (3 * (i / 4))).toNat / 2 ^ (6 * (i % 4)) % 64 := by
  have hfield : ((s.loadView (3 * (i / 4)) >>> (6 * (i % 4))) &&& 0x3F#32).toNat =
      (s.loadView (3 * (i / 4))).toNat / 2 ^ (6 * (i % 4)) % 64 :=
    shiftRight_and_mask_toNat (k := 6) _ _ (by decide)
  simp only [State.getReg, Width.byteIndex, Width.shift, BitVec.toNat_setWidth, hfield]
  omega

theorem State.getReg_w8 (i : Nat) : s.getReg .w8 i = s.loadByte i := rfl

end Sys2Proof.Machine
end

section
/-! The obligations of the register file. -/

namespace Sys2Proof.Proofs

open Sys2Proof.Machine

/-- Settles O48: a width-4 register is the low or the high nibble of its byte by the index's parity, a
width-6 register a field of its block's view, a width-8 register a byte. -/
theorem registerLayouts : Obligations.RegisterLayouts := by
  intro s i byte view
  refine ⟨?_, ?_, ?_⟩
  · have hbyte : byte (i / 2) < 256 := BitVec.isLt _
    have hget : (s.getReg .w4 i).toNat = byte (i / 2) / 2 ^ (4 * (i % 2)) % 16 := s.getReg_w4_toNat i
    rcases Nat.mod_two_eq_zero_or_one i with heven | hodd
    · rw [hget, heven, if_pos rfl, Nat.mul_zero, pow_zero, Nat.div_one]
    · rw [hget, hodd, if_neg one_ne_zero]
      omega
  · rw [s.getReg_w6_toNat, s.loadView_toNat]
  · rw [s.getReg_w8]

end Sys2Proof.Proofs
end

section
/-! The fields of the hash bytes as sums over their bytes, and divisibility by powers of two read off the low
bits (00_scope.md R9; 41_rank_extractor.md R140 to R143). -/

namespace Sys2Proof.Machine

/-- The little-endian integer of a list's first bytes, as a sum over their places; a byte the list does not
have counts 0 (00_scope.md R9). -/
theorem leNat_take_eq_sum (bs : List Byte) (n : Nat) :
    leNat (bs.take n) = ∑ j ∈ Finset.range n, (bs.getD j 0).toNat * 2 ^ (8 * j) := by
  induction bs generalizing n with
  | nil => simp [leNat]
  | cons b bs ih =>
    cases n with
    | zero => rfl
    | succ n =>
      rw [List.take_succ_cons, leNat, ih, Finset.sum_range_succ', Finset.mul_sum, Nat.add_comm]
      refine congrArg₂ _ (Finset.sum_congr rfl fun j _ => ?_) (Nat.mul_one _).symm
      rw [List.getD_cons_succ]
      ring

/-- A field of the hash bytes is the sum of its bytes at their places (00_scope.md R9). -/
theorem hashLE_eq_sum (h : HashIn) (off n : Nat) :
    hashLE h off n = ∑ j ∈ Finset.range n, (h.toList.getD (off + j) 0).toNat * 2 ^ (8 * j) := by
  simp only [hashLE, leNat_take_eq_sum, List.getD_eq_getElem?_getD, List.getElem?_drop]

/-- The multiples of 2^n are the numbers whose low n bits are 0. -/
theorem two_pow_dvd_iff_testBit {x n : Nat} : 2 ^ n ∣ x ↔ ∀ j, j < n → x.testBit j = false := by
  constructor
  · rintro ⟨k, rfl⟩ j hj
    rw [Nat.testBit_two_pow_mul, decide_eq_false (by omega), Bool.false_and]
  · intro hlow
    refine Nat.dvd_of_mod_eq_zero (Nat.eq_of_testBit_eq fun j => ?_)
    rw [Nat.testBit_mod_two_pow, Nat.zero_testBit, Bool.and_eq_false_imp, decide_eq_true_eq]
    exact hlow j

end Sys2Proof.Machine
end

section
/-! The obligations of the rank extractor. -/

namespace Sys2Proof.Proofs

open Sys2Proof.Machine

/-- Settles O43: both fields are read as sums over their bytes, and the mask keeps the index field modulo
m. -/
theorem hashFieldsLittleEndian : Obligations.HashFieldsLittleEndian := by
  intro c h
  have hindex := hashLE_eq_sum h 0 8
  simp only [Nat.zero_add] at hindex
  exact ⟨hindex, hashLE_eq_sum h 8 c.width.rankBytes, bucket_eq_mod c h, bucket_lt c h⟩

/-- Settles O44: the rank is p + 1 for the lowest 1 bit p of the guarded field, and a number's low zero bits
are the powers of 2 that divide it. -/
theorem rankCountsTrailingZeros : Obligations.RankCountsTrailingZeros := by
  intro w h
  obtain ⟨p, -, hrank, hone, hlow⟩ := rank_spec w h
  refine ⟨rank_pos w h, rank_le w h, ?_, ?_⟩ <;> rw [hrank]
  · exact two_pow_dvd_iff_testBit.mpr hlow
  · intro hdvd
    have hzero := two_pow_dvd_iff_testBit.mp hdvd p (Nat.lt_succ_self p)
    exact Bool.false_ne_true (hzero.symm.trans hone)

end Sys2Proof.Proofs
end

section
/-! COUNT's branches and its rounding in terms of the exact rational E (42_estimator.md R176, R177, R184). -/

namespace Sys2Proof.Machine

open Sys2Proof.Safety

/-- A fraction rounds as its value in lowest terms does: rounding sees the quotient alone (00_scope.md
R11). -/
theorem rne64_lowestTerms {e : Frac} (he : 0 < e.den) {q : ℚ} (hq : (e.num : ℚ) / e.den = q) :
    rne64 ⟨q.num.toNat, q.den⟩ = rne64 e := by
  have hnum : ((q.num.toNat : ℕ) : ℚ) = q.num := by
    have hq0 : 0 ≤ q := hq ▸ by positivity
    exact_mod_cast Int.toNat_of_nonneg (Rat.num_nonneg.mpr hq0)
  have hden : (e.den : ℚ) ≠ 0 := Nat.cast_ne_zero.mpr he.ne'
  have hqden : (q.den : ℚ) ≠ 0 := Nat.cast_ne_zero.mpr q.den_ne_zero
  refine rne64_congr q.den_pos he ?_
  have hcross : ((q.num.toNat : ℕ) : ℚ) * e.den = e.num * q.den := by
    rw [hnum, ← div_eq_div_iff hqden hden, Rat.num_div_den, hq]
  exact_mod_cast hcross

variable {s : State} {c : ActiveConfig}

/-- COUNT's own rule answers the estimate with status OK (42_estimator.md R184). -/
theorem exec_count_of_ready (h : Ready s c) :
    exec .count s =
      .next (s.respond .ok (estimateBits c.exponent (s.rawEstimate c) (s.emptyRegs c)) 0) :=
  run_of_ready h _ (countActive s) _

/-- The small-range test on a state's registers compares E with (5/2) * m (42_estimator.md R176). -/
theorem State.smallRange_rawEstimate_iff :
    smallRange c.exponent (s.rawEstimate c) = true ↔ rawQ s c ≤ 5 / 2 * (c.regCount : ℚ) := by
  rw [smallRange_iff _ (s.rawEstimate_den_pos c), s.rawEstimate_eq c, ActiveConfig.regCount]

/-- The result of a state's registers, by the branch E takes (42_estimator.md R177). -/
theorem State.estimateBits_eq :
    estimateBits c.exponent (s.rawEstimate c) (s.emptyRegs c) =
      if rawQ s c ≤ 5 / 2 * (c.regCount : ℚ) then
        (if 0 < s.emptyRegs c then lincount c.regCount (s.emptyRegs c) else 0)
      else rne64 ⟨(rawQ s c).num.toNat, (rawQ s c).den⟩ := by
  have hround := rne64_lowestTerms (s.rawEstimate_den_pos c) (s.rawEstimate_eq c)
  simp only [estimateBits, State.smallRange_rawEstimate_iff, hround, ActiveConfig.regCount]

end Sys2Proof.Machine
end

section
/-! The obligations of the estimator. -/

namespace Sys2Proof.Proofs

open Sys2Proof.Machine Sys2Proof.Safety

/-- Settles O25: the ready state runs COUNT's own rule, whose integers are the exact E and Z. -/
theorem countComputesTheEstimate : Obligations.CountComputesTheEstimate := by
  intro s c hready
  rw [exec_count_of_ready hready, State.estimateBits_eq, State.emptyRegs, emptyCount_eq]
  rfl

end Sys2Proof.Proofs
end

section
/-! What INIT answers, check by check, and what ADD's own rule answers (43_counter_control.md R200 to R203,
R210). -/

namespace Sys2Proof.Machine

open Sys2Proof.Safety

/-- A legal width field with the least bucket exponent and the image length of its width (00_scope.md R6;
20_memory.md R50; 43_counter_control.md R201). -/
theorem Width.exists_ofField_of_legal {rw : Byte} (h : rw = 4 ∨ rw = 6 ∨ rw = 8) (b : Nat) :
    ∃ w, Width.ofField rw = some w ∧
      (if rw = 4 then 1 else if rw = 6 then 2 else 0) = w.bMin ∧
      (if rw = 4 then 2 ^ b / 2 else if rw = 6 then 3 * (2 ^ b / 4) + 1 else 2 ^ b) =
        w.imageLen b := by
  rcases h with rfl | rfl | rfl
  · exact ⟨.w4, rfl, rfl, rfl⟩
  · exact ⟨.w6, rfl, rfl, rfl⟩
  · exact ⟨.w8, rfl, rfl, rfl⟩

theorem Width.ofField_eq_none {rw : Byte} (h : ¬ (rw = 4 ∨ rw = 6 ∨ rw = 8)) :
    Width.ofField rw = none := by
  obtain ⟨h4, h6, h8⟩ : rw ≠ 4 ∧ rw ≠ 6 ∧ rw ≠ 8 := by simpa [not_or] using h
  rw [Width.ofField, if_neg h4, if_neg h6, if_neg h8]

section
variable {rw be : Byte} {hv : Bool} {cap : Nat} {w : Width}

theorem validate_nullTarget : validate rw be false hv cap = .nullTarget := rfl

theorem validate_invalidRegisterWidth (hw : Width.ofField rw = none) :
    validate rw be true hv cap = .invalidRegisterWidth := by
  simp [validate, hw]

theorem validate_invalidBucketExponent (hw : Width.ofField rw = some w)
    (hb : be.toNat < w.bMin ∨ 64 ≤ be.toNat) :
    validate rw be true hv cap = .invalidBucketExponent := by
  simp [validate, hw, Config.idxBytes, hb]

section
variable (hw : Width.ofField rw = some w) (hmin : w.bMin ≤ be.toNat) (hmax : be.toNat < 64)
include hw hmin hmax

theorem validate_nullHashFunction : validate rw be true false cap = .nullHashFunction := by
  simp [validate, hw, Config.idxBytes, hmin, hmax]

theorem validate_allocationFailure (hcap : cap < w.imageLen be.toNat) :
    validate rw be true true cap = .allocationFailure := by
  simp [validate, hw, Config.idxBytes, hmin, hmax, hcap]

end
end

variable {s : State}

section
variable {rw be : Byte} {tv hv : Bool}

/-- An INIT that fails a check writes the response alone (43_counter_control.md R203). -/
theorem exec_init_of_validate_fails (hf : s.fault = false) {st : Status}
    (hst : validate rw be tv hv s.capBytes.toNat = st) (hne : st ≠ .ok) :
    exec (.init rw be tv hv) s = .next (s.respond st 0 0) := by
  rw [exec, execInit, unlessFaulted_false hf, hst]
  split
  · contradiction
  · rfl

/-- An INIT that passes every check initialises the block and responds OK (43_counter_control.md R202). -/
theorem exec_init_of_validate_ok (hf : s.fault = false)
    (hok : validate rw be tv hv s.capBytes.toNat = .ok) :
    exec (.init rw be tv hv) s = .next ((s.initialise rw be).respond .ok 0 0) := by
  rw [exec, execInit, unlessFaulted_false hf, hok]

theorem initImageLen_of_ofField {w : Width} (hw : Width.ofField rw = some w) :
    initImageLen rw be = w.imageLen be.toNat := by
  simp [initImageLen, hw]

end

/-- ADD's own rule updates the register of the bucket and responds OK (43_counter_control.md R210). -/
theorem exec_add_of_ready {c : ActiveConfig} (h : Ready s c) (hash : HashIn) :
    exec (.add hash) s =
      .next ((s.updateReg c.width (bucket c hash) (rank c.width hash)).respond .ok 0 0) :=
  run_of_ready h _ (addActive hash s) _

@[simp] theorem State.getReg_respond (st : Status) (d0 d1 : DWord) :
    (s.respond st d0 d1).getReg = s.getReg := rfl

end Sys2Proof.Machine
end

section
/-! The obligations of the counter control. -/

namespace Sys2Proof.Proofs

open Sys2Proof.Machine Sys2Proof.Safety

/-- Settles O18: the checks are passed one by one, and INIT answers the status of the first that fails. -/
theorem initRejectsInOrder : Obligations.InitRejectsInOrder := by
  intro s rw be tv hv hf bMin len failed
  have hfail {st : Status} (hst : validate rw be tv hv s.capBytes.toNat = st) (hne : st ≠ .ok) :
      exec (.init rw be tv hv) s = failed st.code := exec_init_of_validate_fails hf hst hne
  have hlegal (h : rw = 4 ∨ rw = 6 ∨ rw = 8) :
      ∃ w, Width.ofField rw = some w ∧ bMin = w.bMin ∧ len = w.imageLen be.toNat :=
    Width.exists_ofField_of_legal h be.toNat
  refine ⟨?_, ?_, ?_, ?_, ?_, ?_⟩
  · rintro rfl
    exact hfail validate_nullTarget (by decide)
  · rintro rfl hrw
    exact hfail (validate_invalidRegisterWidth (Width.ofField_eq_none hrw)) (by decide)
  · rintro rfl hrw hb
    obtain ⟨w, hw, hmin, -⟩ := hlegal hrw
    exact hfail (validate_invalidBucketExponent hw (hmin ▸ hb)) (by decide)
  · rintro rfl hrw hb hb' rfl
    obtain ⟨w, hw, hmin, -⟩ := hlegal hrw
    exact hfail (validate_nullHashFunction hw (hmin ▸ hb) hb') (by decide)
  · rintro rfl hrw hb hb' rfl hcap
    obtain ⟨w, hw, hmin, hlen⟩ := hlegal hrw
    exact hfail (validate_allocationFailure hw (hmin ▸ hb) hb' (hlen ▸ hcap)) (by decide)
  · rintro rfl hrw hb hb' rfl hcap
    obtain ⟨w, hw, hmin, hlen⟩ := hlegal hrw
    have hok := validate_ok.mpr ⟨w, hw, rfl, rfl, hmin ▸ hb, hb', hlen ▸ hcap⟩
    exact ⟨_, exec_init_of_validate_ok hf hok, rfl⟩

/-- Settles O19: an INIT that passes every check leaves the initialised block, whose zero-fill ends at the
image. -/
theorem initSucceeds : Obligations.InitSucceeds := by
  intro s rw be w hf hw hmin hmax hcap
  have hok := validate_ok.mpr ⟨w, hw, rfl, rfl, hmin, hmax, hcap⟩
  refine ⟨_, exec_init_of_validate_ok hf hok, rfl, fun a => ?_⟩
  rw [State.loadByte_respond, State.loadByte_initialise, initImageLen_of_ofField hw]

/-- Settles O21: the ready state runs ADD's own rule, whose update writes the bucket's register alone and
only where it grows. -/
theorem addMergesRank : Obligations.AddMergesRank := by
  intro s c h hready
  refine ⟨_, exec_add_of_ready hready h, ?frame, bucket_lt c h, ?merged, ?kept, ?others⟩
  case frame => exact congrArg (·.respond .ok 0 0) (s.updateReg_eta c.width (bucket c h) _)
  case merged => rw [State.getReg_respond, State.getReg_updateReg_same, saturate]
  case kept =>
    intro hle
    rw [State.respond_store, s.updateReg_of_le c.width hle]
  case others =>
    intro j hj
    rw [State.getReg_respond, s.getReg_updateReg_other c.width _ hj]

end Sys2Proof.Proofs
end

section
/-! A fault masks every request, and a block with no input is idle (60_exceptions.md R245, R256). -/

namespace Sys2Proof.Machine

variable {s : State}

/-- Every command stands behind the fault mask (30_encoding.md R80). -/
theorem exec_of_faulted (hf : s.fault = true) (i : Instr) : exec i s = .next s.respondFaulted := by
  cases i <;> exact unlessFaulted_true hf

/-- A legal request and an illegal one meet the same fault mask (60_exceptions.md R245). -/
theorem serveRequest_of_faulted (hf : s.fault = true) (q : Request) :
    serveRequest q s = .next s.respondFaulted := by
  cases hq : decode q with
  | error e => rw [serveRequest_of_error hq, answerIllegal, unlessFaulted_true hf]
  | ok i => rw [serveRequest, hq]; exact exec_of_faulted hf i

theorem step_of_faulted_request (hf : s.fault = true) {q : Request}
    (h : s.nextInput? = some (.request q)) : step s = .next s.respondFaulted.advance := by
  rw [step_of_request h, serveRequest_of_faulted hf, advanceAnswer]

theorem step_of_no_input (h : s.nextInput? = none) : step s = .next s := by
  simp only [step, serve, h]

end Sys2Proof.Machine
end

section
/-! The obligations of the exceptions. -/

namespace Sys2Proof.Proofs

open Sys2Proof.Machine

/-- Settles O16: a command answers a faulted block with its fault, and of the three kinds of step, idle, a
request and the reset input, only the last does not keep FAULT. -/
theorem faultStickyUntilReset : Obligations.FaultStickyUntilReset := by
  constructor
  · intro i s t hf h
    cases (exec_of_faulted hf i).symm.trans h
    exact ⟨hf, rfl⟩
  · intro s t hf h hclear
    match hx : s.nextInput? with
    | none =>
      cases (step_of_no_input hx).symm.trans h
      simp [hf] at hclear
    | some (.request q) =>
      cases (step_of_faulted_request hf hx).symm.trans h
      simp [hf] at hclear
    | some .reset => rfl

/-- Settles O8: with no next input, serving leaves the state. -/
theorem idleBlockKeepsState : Obligations.IdleBlockKeepsState := fun _ => step_of_no_input

/-- Settles O10: the fault mask answers a request and a command alike. -/
theorem faultMasksEveryRequest : Obligations.FaultMasksEveryRequest :=
  ⟨fun _ _ hf hq => step_of_faulted_request hf hq, fun i _ hf => exec_of_faulted hf i⟩

end Sys2Proof.Proofs
end

section
/-! What the invariant's clauses need of each kind of next state (10_state.md R20 to R26, R34). -/

namespace Sys2Proof.Machine

open Sys2Proof.Safety

variable {s t : State}

/-- No status above 8 exists (60_exceptions.md R240). -/
theorem Status.code_le (st : Status) : st.code.toNat ≤ 8 := by
  cases st <;> decide

/-- INIT's checks leave a configuration that is legal while ACTIVE (10_state.md R23;
43_counter_control.md R201). -/
theorem State.config?_initialise {rw be : Byte} {tv hv : Bool}
    (hok : validate rw be tv hv s.capBytes.toNat = .ok) :
    ∃ w, (s.initialise rw be).config? = some ⟨w, be.toNat⟩ := by
  obtain ⟨w, hw, -, -, hmin, hmax, hcap⟩ := validate_ok.mp hok
  exact ⟨w, State.config?_eq_some.mpr ⟨hw, rfl, hmin, hmax, hcap⟩⟩

/-- The bytes of the access to a legal index of a held configuration lie below CAP_BYTES
(20_memory.md R52). -/
theorem State.access_lt_capBytes {c : ActiveConfig} (hc : s.config? = some c) {i : Nat}
    (hi : i < c.regCount) : c.width.byteIndex i + c.width.accessBytes ≤ s.capBytes.toNat := by
  obtain ⟨-, -, hmin, -, hcap⟩ := State.config?_eq_some.mp hc
  exact (c.width.access_inside c.exponent i hmin hi).trans hcap

/-- A write to a legal index of a width-6 image keeps the pad byte at the image's end (10_state.md
R34). -/
theorem State.setReg_read_pad {b i : Nat} {v : Byte} (hb : 2 ≤ b) (hi : i < 2 ^ b)
    (hv : v.toNat < 2 ^ 6) (hpad : Store.read? s.store (Width.w6.imageLen b - 1) = some 0) :
    Store.read? (s.setReg .w6 i v).store (Width.w6.imageLen b - 1) = some 0 := by
  obtain ⟨k, rfl⟩ := Nat.exists_eq_add_of_le hb
  have hend : Width.w6.imageLen (2 + k) - 1 = 3 * 2 ^ k := by
    rw [Width.imageLen, Nat.pow_add, Nat.add_sub_cancel, Nat.mul_div_cancel_left _ (by decide)]
  rw [Nat.pow_add] at hi
  rw [hend] at hpad ⊢
  by_cases hlast : i / 4 + 1 = 2 ^ k
  · have hbyte : 3 * 2 ^ k = 3 * (i / 4) + 3 := by omega
    rw [hbyte] at hpad ⊢
    exact s.setReg6_pad i v 0 hv hpad
  · rw [s.setReg_read_other .w6 i _ v
      (.inr (by simp only [Width.byteIndex, Width.accessBytes]; omega))]
    exact hpad

/-- A register write to a legal index keeps an image in order (10_state.md R26, R34). -/
theorem State.imageOk_setReg {c : ActiveConfig} {i : Nat} {v : Byte} (hc : s.config? = some c)
    (hi : i < c.regCount) (hv : v.toNat < 2 ^ c.width.bits) (h : ImageOk s) :
    ImageOk (s.setReg c.width i v) := by
  intro hlife
  rw [State.setReg_life] at hlife
  obtain ⟨hlisted, hpad⟩ := h hlife
  rw [State.setReg_cfgR, State.setReg_cfgB]
  refine ⟨fun a ha => s.setReg_listed _ _ _ _ (hlisted a ha), fun h6 => ?_⟩
  obtain ⟨hw, -, hmin, -⟩ := State.config?_eq_some.mp hc
  obtain ⟨w, b⟩ := c
  rw [State.initImageLen_eq hc] at hpad ⊢
  obtain rfl : w = .w6 := by
    rw [h6] at hw
    exact (Option.some.inj hw).symm
  exact s.setReg_read_pad hmin hi hv (hpad h6)

end Sys2Proof.Machine
end

section
/-! Every kind of next state meets the invariant (10_state.md R20 to R26, R34). -/

namespace Sys2Proof.Machine

open Sys2Proof.Safety

variable {s t : State}

theorem inv_respond (h : Inv s) (hf : s.fault = false) (st : Status) (d0 d1 : DWord) :
    Inv (s.respond st d0 d1) := by
  obtain ⟨hstore, ⟨hcause, -, -⟩, hconfig, himage, hscript⟩ := h
  have hfault : FaultOk (s.respond st d0 d1) :=
    ⟨hcause, fun hf' => absurd hf' (by simp [hf]), st.code_le⟩
  exact ⟨hstore, hfault, hconfig, himage, hscript⟩

theorem inv_respondFaulted (h : Inv s) : Inv s.respondFaulted := by
  obtain ⟨hstore, ⟨hcause, -, -⟩, hconfig, himage, hscript⟩ := h
  have hfault : FaultOk s.respondFaulted :=
    ⟨hcause, fun _ => ⟨rfl, rfl, rfl⟩, Status.code_le .fault⟩
  exact ⟨hstore, hfault, hconfig, himage, hscript⟩

theorem inv_raiseFault (h : Inv s) {c : FaultCause} (hc : c ≠ .none) : Inv (s.raiseFault c) := by
  obtain ⟨hstore, -, hconfig, himage, hscript⟩ := h
  have hfault : FaultOk (s.raiseFault c) :=
    ⟨iff_of_true rfl hc, fun _ => ⟨rfl, rfl, rfl⟩, Status.code_le .fault⟩
  exact ⟨hstore, hfault, hconfig, himage, hscript⟩

theorem inv_initialise (h : Inv s) {rw be : Byte} {tv hv : Bool}
    (hok : validate rw be tv hv s.capBytes.toNat = .ok) : Inv (s.initialise rw be) := by
  obtain ⟨⟨hwf, hbound, hcap⟩, hfault, -, -, hscript⟩ := h
  obtain ⟨w, hc⟩ := State.config?_initialise hok
  have hlen := State.initImageLen_eq hc
  obtain ⟨-, -, hmin, -, hfits⟩ := State.config?_eq_some.mp hc
  have hpos := w.imageLen_pos be.toNat hmin
  simp only [State.initialise_cfgR, State.initialise_cfgB, ActiveConfig.imageLen,
    State.initialise_capBytes] at hlen hfits
  refine ⟨⟨Store.zeroFill_wf _ hwf, fun x hx => ?_, hcap⟩, hfault, ⟨?_, ?_⟩, fun _ => ⟨?_, ?_⟩,
    hscript⟩
  · rcases Store.mem_zeroFill hx with hx | hx
    · exact hx.trans_le (hlen.le.trans hfits)
    · exact hbound x hx
  · intro hlife
    cases hlife
  · intro _
    rw [hc]
    rfl
  · intro a (ha : a < initImageLen rw be)
    rw [State.initialise_store, Store.read?_zeroFill, if_pos ha]
    rfl
  · intro _
    rw [State.initialise_store, Store.read?_zeroFill]
    exact if_pos (Nat.sub_lt (hlen ▸ hpos) Nat.one_pos)

theorem inv_setReg (h : Inv s) {c : ActiveConfig} (hc : s.config? = some c) {i : Nat}
    (hi : i < c.regCount) {v : Byte} (hv : v.toNat < 2 ^ c.width.bits) :
    Inv (s.setReg c.width i v) := by
  obtain ⟨⟨hwf, hbound, hcap⟩, hfault, hconfig, himage, hscript⟩ := h
  have himage' := State.imageOk_setReg hc hi hv himage
  have hstore : StoreOk (s.setReg c.width i v) := by
    refine ⟨s.setReg_wf _ _ _ hwf, ?_, ?_⟩ <;> rw [State.setReg_capBytes]
    · exact s.setReg_bound _ _ _ _ (State.access_lt_capBytes hc hi) hbound
    · exact hcap
  rw [s.setReg_eta] at hstore himage' ⊢
  exact ⟨hstore, hfault, hconfig, himage', hscript⟩

theorem inv_updateReg (h : Inv s) {c : ActiveConfig} (hc : s.config? = some c) {q : Nat}
    (hq : q < c.regCount) (k : Nat) : Inv (s.updateReg c.width q k) := by
  rcases s.updateReg_cases c.width q k with heq | ⟨v, hv, heq⟩ <;> rw [heq]
  · exact h
  · exact inv_setReg h hc hq hv

theorem inv_freed (h : Inv s) (hl : s.life = .active) : Inv { s with life := .freed } := by
  obtain ⟨hstore, hfault, ⟨-, hconfig⟩, -, hscript⟩ := h
  refine ⟨hstore, hfault, ⟨?_, fun _ => hconfig (by simp [hl])⟩, ?_, hscript⟩ <;>
    exact fun hlife => nomatch hlife

theorem inv_takeReset (h : Inv s) : Inv s.takeReset := by
  obtain ⟨⟨-, -, hcap⟩, -, -, -, hscript⟩ := h
  refine ⟨⟨rfl, ?_, hcap⟩, ?_, ⟨?_, ?_⟩, ?_, hscript⟩
  · exact fun x hx => absurd hx List.not_mem_nil
  · exact ⟨by simp, by simp, by simp⟩
  · exact fun _ => ⟨rfl, rfl⟩
  · exact fun hlife => absurd rfl hlife
  · exact fun hlife => nomatch hlife

theorem inv_reset : Inv State.reset := by
  have hcap : State.reset.capBytes ≠ 0 := by
    intro h0
    have hlast := Config.lastByte.isLt
    have hcap0 : (Config.lastByte.val + 1) % 2 ^ 64 = 0 := congrArg BitVec.toNat h0
    omega
  refine ⟨⟨State.reset_wf, ?_, hcap⟩, ?_, ⟨?_, ?_⟩, ?_, le_rfl⟩
  · exact fun x hx => absurd hx List.not_mem_nil
  · decide
  · exact fun _ => ⟨rfl, rfl⟩
  · exact fun hlife => absurd rfl hlife
  · exact fun hlife => nomatch hlife

theorem inv_advance (h : Inv s) (hpos : s.pos < s.script.length) : Inv s.advance := by
  obtain ⟨hstore, hfault, hconfig, himage, -⟩ := h
  exact ⟨hstore, hfault, hconfig, himage, hpos⟩

/-- A command keeps the invariant. -/
theorem exec_keeps_inv {i : Instr} (h : Inv s) (hx : exec i s = .next t) : Inv t := by
  rcases exec_cases hx with ⟨-, rfl⟩ | ⟨hf, st, d0, d1, -, rfl⟩ | ⟨-, c, hc, rfl⟩ |
    ⟨hf, rw, be, tv, hv, -, hok, rfl⟩ | ⟨hash, c, -, ⟨hf, -, hc⟩, rfl⟩ | ⟨hf, -, hl, rfl⟩
  · exact inv_respondFaulted h
  · exact inv_respond h hf st d0 d1
  · exact inv_raiseFault h hc
  · exact inv_respond (inv_initialise h hok) hf _ _ _
  · exact inv_respond (inv_updateReg h hc (bucket_lt c hash) _) (by simpa using hf) _ _ _
  · exact inv_respond (inv_freed h hl) hf _ _ _

end Sys2Proof.Machine
end

section
/-! What serves an input: the host's sequence and position, and the invariant, along steps
(10_state.md R30; 60_exceptions.md R257). -/

namespace Sys2Proof.Machine

open Sys2Proof.Safety

variable {s t : State}

/-- No command moves the host's position, its sequence, CAP_BYTES or the number of resets
(10_state.md R26, R30). -/
theorem exec_keeps_host {i : Instr} (hx : exec i s = .next t) :
    t.pos = s.pos ∧ t.script = s.script ∧ t.capBytes = s.capBytes ∧
      t.storeEpoch = s.storeEpoch := by
  rcases exec_cases hx with ⟨-, rfl⟩ | ⟨-, _, _, _, -, rfl⟩ | ⟨-, _, -, rfl⟩ |
    ⟨-, _, _, _, _, -, -, rfl⟩ | ⟨_, _, -, -, rfl⟩ | ⟨-, -, -, rfl⟩ <;> simp

/-- A step that serves an input moves the position on by one and keeps the sequence (10_state.md
R30). -/
theorem step_advances {x : HostInput} (hin : s.nextInput? = some x) (h : step s = .next t) :
    t.pos = s.pos + 1 ∧ t.script = s.script := by
  rcases step_cases h with ⟨hnone, -⟩ | ⟨q, e, -, -, ⟨-, rfl⟩ | ⟨-, rfl⟩⟩ |
    ⟨q, i, u, -, -, hx, rfl⟩ | ⟨-, rfl⟩
  · cases hnone.symm.trans hin
  · exact ⟨rfl, rfl⟩
  · exact ⟨rfl, rfl⟩
  · obtain ⟨hpos, hscript, -⟩ := exec_keeps_host hx
    exact ⟨congrArg (· + 1) hpos, hscript⟩
  · exact ⟨rfl, rfl⟩

theorem pos_lt_of_nextInput? {x : HostInput} (h : s.nextInput? = some x) :
    s.pos < s.script.length :=
  (List.getElem?_eq_some_iff.mp h).1

/-- A step keeps the invariant. -/
theorem step_keeps_inv (h : Inv s) (hstep : step s = .next t) : Inv t := by
  rcases step_cases hstep with ⟨-, rfl⟩ | ⟨q, e, hin, -, ⟨-, rfl⟩ | ⟨hf, rfl⟩⟩ |
    ⟨q, i, u, hin, -, hx, rfl⟩ | ⟨hin, rfl⟩
  · exact h
  · exact inv_advance (inv_respondFaulted h) (pos_lt_of_nextInput? hin)
  · exact inv_advance (inv_respond h hf _ _ _) (pos_lt_of_nextInput? hin)
  · obtain ⟨hpos, hscript, -⟩ := exec_keeps_host hx
    refine inv_advance (exec_keeps_inv h hx) ?_
    rw [hpos, hscript]
    exact pos_lt_of_nextInput? hin
  · exact inv_advance (inv_takeReset h) (pos_lt_of_nextInput? hin)

end Sys2Proof.Machine
end

section
/-! The obligations of the invariant. -/

namespace Sys2Proof.Proofs

open Sys2Proof.Machine Sys2Proof.Safety

/-- Settles O55: each kind of next state a step can answer meets the invariant. -/
theorem everyStepKeepsInvariant : Obligations.EveryStepKeepsInvariant := fun _ _ h hstep =>
  step_keeps_inv h hstep

/-- Settles O54: STORE lists nothing, every register is 0, and CAP_BYTES is one more than an offset.
-/
theorem resetMeetsInvariant : Obligations.ResetMeetsInvariant := inv_reset

/-- Settles O9: a step that serves an input advances the position, and no command moves it. -/
theorem positionAdvancesByOne : Obligations.PositionAdvancesByOne := by
  refine ⟨fun s t x hin h => step_advances hin h, fun i s t hx => ?_⟩
  obtain ⟨hpos, hscript, -⟩ := exec_keeps_host hx
  exact ⟨hpos, hscript⟩

end Sys2Proof.Proofs
end

section
/-! Every command and every step answers, and so does a run of them (70_reset_and_hazards.md R281).
-/

namespace Sys2Proof.Machine

open Sys2Proof.Safety

variable {s t u : State}

theorem withConfig_answers {run : ActiveConfig → Answer} (hc : s.config?.isSome = true)
    (hrun : ∀ c, ∃ t, run c = .next t) : ∃ t, withConfig s run = .next t := by
  obtain ⟨c, hc⟩ := Option.isSome_iff_exists.mp hc
  exact withConfig_some (run := run) hc ▸ hrun c

/-- Behind the fault mask and the gate only the command's own rule in ACTIVE can fail to answer
(30_encoding.md R80, R81). -/
theorem gate_answers {a : Answer} {cause : FaultCause}
    (ha : s.life = .active → ∃ t, a = .next t) :
    ∃ t, unlessFaulted s (lifecycleGate s (.next u) a cause) = .next t := by
  cases hf : s.fault with
  | true => exact ⟨_, unlessFaulted_true hf⟩
  | false =>
    rw [unlessFaulted_false hf]
    cases hl : s.life with
    | uninit => exact ⟨_, lifecycleGate_uninit hl⟩
    | active => exact lifecycleGate_active (u := .next u) (c := cause) hl ▸ ha hl
    | freed => exact ⟨_, lifecycleGate_freed hl⟩

/-- A command answers unless it needs a configuration the state does not hold (10_state.md R23). -/
theorem exec_answers (i : Instr) (hc : s.life = .active → s.config?.isSome = true) :
    ∃ t, exec i s = .next t := by
  cases i with
  | init rw be tv hv =>
    cases hf : s.fault with
    | true => exact ⟨_, exec_of_faulted hf _⟩
    | false =>
      by_cases hok : validate rw be tv hv s.capBytes.toNat = .ok
      · exact ⟨_, exec_init_of_validate_ok hf hok⟩
      · exact ⟨_, exec_init_of_validate_fails hf rfl hok⟩
  | add hash => exact gate_answers fun hl => withConfig_answers (hc hl) fun c => ⟨_, rfl⟩
  | count => exact gate_answers fun hl => withConfig_answers (hc hl) fun c => ⟨_, rfl⟩
  | free => exact gate_answers fun _ => ⟨_, rfl⟩
  | rget index =>
    refine gate_answers fun hl => withConfig_answers (hc hl) fun c => ?_
    unfold rgetActive
    split <;> exact ⟨_, rfl⟩
  | rdbyte offset =>
    refine gate_answers fun hl => withConfig_answers (hc hl) fun c => ?_
    unfold rdbyteActive
    split <;> exact ⟨_, rfl⟩
  | extract hash => exact gate_answers fun hl => withConfig_answers (hc hl) fun c => ⟨_, rfl⟩
  | rdcfg =>
    cases hf : s.fault with
    | true => exact ⟨_, exec_of_faulted hf _⟩
    | false => exact ⟨_, unlessFaulted_false hf⟩

/-- A step whose next input is a legal request runs its command. -/
theorem step_of_command {q : Request} {i : Instr} (hin : s.nextInput? = some (.request q))
    (hq : decode q = .ok i) : step s = advanceAnswer (exec i s) := by
  rw [step_of_request hin, serveRequest, hq]

theorem step_of_reset (hin : s.nextInput? = some .reset) : step s = .next s.takeReset.advance := by
  simp only [step, serve, hin, serveInput, advanceAnswer]

/-- From a state that meets the invariant every input is answered (70_reset_and_hazards.md R281). -/
theorem step_answers (h : Inv s) : ∃ t, step s = .next t := by
  obtain ⟨-, -, ⟨-, hconfig⟩, -, -⟩ := h
  match hin : s.nextInput? with
  | none => exact ⟨_, step_of_no_input hin⟩
  | some .reset => exact ⟨_, step_of_reset hin⟩
  | some (.request q) =>
    cases hq : decode q with
    | error e =>
      rw [step_of_request hin, serveRequest_of_error hq, answerIllegal]
      cases hf : s.fault with
      | true => exact ⟨_, congrArg advanceAnswer (unlessFaulted_true hf)⟩
      | false => exact ⟨_, congrArg advanceAnswer (unlessFaulted_false hf)⟩
    | ok i =>
      obtain ⟨t, hx⟩ := exec_answers i fun hl => hconfig (by simp [hl])
      exact ⟨_, (step_of_command hin hq).trans (congrArg advanceAnswer hx)⟩

theorem runFor_succ {n : Nat} (h : step s = .next t) : runFor (n + 1) s = runFor n t := by
  simp only [runFor, h]

/-- A run from a state that meets the invariant ends in one. -/
theorem runFor_answers (n : Nat) (h : Inv s) : ∃ t, runFor n s = .next t ∧ Inv t := by
  induction n generalizing s with
  | zero => exact ⟨s, rfl, h⟩
  | succ n ih =>
    obtain ⟨t, hstep⟩ := step_answers h
    rw [runFor_succ hstep]
    exact ih (step_keeps_inv h hstep)

theorem inv_issue (h : Inv s) (inputs : List HostInput) : Inv (issue s inputs) := by
  obtain ⟨hstore, hfault, hconfig, himage, -⟩ := h
  exact ⟨hstore, hfault, hconfig, himage, Nat.zero_le _⟩

theorem responses_succ {n : Nat} {q : Request} (hin : s.nextInput? = some (.request q))
    (h : step s = .next t) : responses (n + 1) s = response t :: responses n t := by
  simp only [responses, h, hin, List.singleton_append]

/-- The next input is the first of those not yet served (10_state.md R30). -/
theorem nextInput?_of_drop {x : HostInput} {xs : List HostInput}
    (h : s.script.drop s.pos = x :: xs) : s.nextInput? = some x := by
  rw [State.nextInput?, ← Nat.add_zero s.pos, ← List.getElem?_drop, h]
  rfl

/-- While only requests are left, each step gives one response (30_encoding.md R70). -/
theorem responses_length {qs : List Request} (h : Inv s)
    (hleft : s.script.drop s.pos = qs.map .request) :
    (responses qs.length s).length = qs.length := by
  induction qs generalizing s with
  | nil => rfl
  | cons q qs ih =>
    have hin := nextInput?_of_drop hleft
    obtain ⟨t, hstep⟩ := step_answers h
    obtain ⟨hpos, hscript⟩ := step_advances hin hstep
    have hleft' : t.script.drop t.pos = qs.map .request := by
      rw [hpos, hscript, ← List.drop_drop, hleft, List.map_cons, List.drop_one, List.tail_cons]
    rw [List.length_cons, responses_succ hin hstep, List.length_cons,
      ih (step_keeps_inv h hstep) hleft']

/-- A command keeps STORE canonical, whatever else the state holds. -/
theorem exec_keeps_store_wf {i : Instr} (h : Store.wf s.store = true) (hx : exec i s = .next t) :
    Store.wf t.store = true := by
  rcases exec_cases hx with ⟨-, rfl⟩ | ⟨-, _, _, _, -, rfl⟩ | ⟨-, _, -, rfl⟩ |
    ⟨-, rw, be, _, _, -, -, rfl⟩ | ⟨hash, c, -, -, rfl⟩ | ⟨-, -, -, rfl⟩
  · exact h
  · exact h
  · exact h
  · exact Store.zeroFill_wf _ h
  · rw [State.respond_store]
    rcases s.updateReg_cases c.width (bucket c hash) (rank c.width hash) with heq | ⟨v, -, heq⟩ <;>
      rw [heq]
    · exact h
    · exact s.setReg_wf _ _ _ h
  · exact h

end Sys2Proof.Machine
end

section
/-! The obligations of the step and of runs. -/

namespace Sys2Proof.Proofs

open Sys2Proof.Machine Sys2Proof.Safety

/-- Settles O56: the invariant holds a configuration wherever a command needs one. -/
theorem everyStepAnswers : Obligations.EveryStepAnswers := fun _ => step_answers

/-- Settles O57: a command writes STORE by the zero-fill and by register writes alone, and the reset
input empties it. -/
theorem storeStaysCanonical : Obligations.StoreStaysCanonical := by
  intro s t hwf h
  rcases step_cases h with ⟨-, rfl⟩ | ⟨q, e, -, -, ⟨-, rfl⟩ | ⟨-, rfl⟩⟩ | ⟨q, i, u, -, -, hx, rfl⟩ |
    ⟨-, rfl⟩
  · exact hwf
  · exact hwf
  · exact hwf
  · exact exec_keeps_store_wf (t := u) hwf hx
  · rfl

/-- Settles O59: by induction on the requests left, each step answers and adds one response. -/
theorem oneResponsePerRequest : Obligations.OneResponsePerRequest := by
  intro s qs h
  obtain ⟨t, hrun, -⟩ := runFor_answers qs.length (inv_issue h (qs.map .request))
  exact ⟨⟨t, hrun⟩, responses_length (inv_issue h _) rfl⟩

/-- Settles O60: the run ends in a state that meets the invariant, where FAULT = 1 names a cause. -/
theorem runReportsFaultOutcome : Obligations.RunReportsFaultOutcome := by
  intro s inputs h
  obtain ⟨t, hrun, hinv⟩ := runFor_answers inputs.length (inv_issue h inputs)
  refine ⟨t, hrun, hinv, ?_⟩
  obtain ⟨-, ⟨hcause, -, -⟩, -, -, -⟩ := hinv
  refine ⟨fun hf => ⟨t.faultCause, hcause.mp hf, rfl, ?_⟩, fun hf => ?_⟩ <;>
    simp [runOutcome, hrun, hf]

/-- Settles O7: a legal request is dispatched to its command. -/
theorem stepRunsDecodedCommand : Obligations.StepRunsDecodedCommand := fun _ _ _ => step_of_command

/-- Settles O12: the reset input is served in every state, and no byte is listed after it. -/
theorem resetInputClearsEverything : Obligations.ResetInputClearsEverything := by
  intro s hin
  exact ⟨_, step_of_reset hin, rfl, rfl, rfl, rfl, rfl, rfl, rfl, rfl, fun _ => rfl, rfl, rfl, rfl⟩

/-- Settles O11: the fields of the state after reset. -/
theorem resetLeavesTheseValues : Obligations.ResetLeavesTheseValues :=
  ⟨rfl, rfl, rfl, rfl, rfl, rfl, rfl, rfl, rfl, rfl, rfl⟩

/-- Settles O5: each word's fields decode as 30_encoding.md R73 and R78 lay them out. -/
theorem workedEncodingsDecode : Obligations.WorkedEncodingsDecode := by
  unfold Obligations.WorkedEncodingsDecode
  decide

/-- Settles O2: a decoded word is the word of its command, so the command's own request decodes back
to it. -/
theorem decodedWordEncodesBack : Obligations.DecodedWordEncodesBack := by
  intro q i h
  have hword := encodeWord_of_decode h
  exact ⟨hword, hword ▸ decode_encode i⟩

end Sys2Proof.Proofs
end

section
/-! A register access sees and writes only its own bytes (20_memory.md R52, R57). -/

namespace Sys2Proof.Machine

variable {s t : State}

theorem State.loadView_congr {k : Nat} (h : ∀ a, k ≤ a → a < k + 4 → s.loadByte a = t.loadByte a) :
    s.loadView k = t.loadView k := by
  simp only [State.loadView]
  rw [h k le_rfl (by omega), h (k + 1) (by omega) (by omega), h (k + 2) (by omega) (by omega),
    h (k + 3) (by omega) (by omega)]

/-- The register read sees STORE only through the bytes of its access (20_memory.md R57). -/
theorem State.getReg_congr_bytes (w : Width) (i : Nat)
    (h : ∀ a, w.byteIndex i ≤ a → a < w.byteIndex i + w.accessBytes → s.loadByte a = t.loadByte a) :
    s.getReg w i = t.getReg w i := by
  cases w <;> simp only [State.getReg]
  · rw [h _ le_rfl (Nat.lt_succ_self _)]
  · rw [State.loadView_congr h]
  · exact h _ le_rfl (Nat.lt_succ_self _)

/-- The same register write on states that hold the same bytes below n leaves them the same bytes
there. -/
theorem State.loadByte_setReg_congr {w : Width} {i n : Nat} (v : Byte)
    (hi : w.byteIndex i + w.accessBytes ≤ n) (h : ∀ a, a < n → s.loadByte a = t.loadByte a)
    {a : Nat} (ha : a < n) : (s.setReg w i v).loadByte a = (t.setReg w i v).loadByte a := by
  cases w <;> simp only [Width.accessBytes] at hi
  · simp only [State.setReg, State.loadByte_storeByte]
    rw [h a ha, h _ (by omega)]
  · simp only [State.setReg, State.loadByte_storeView]
    rw [h a ha, State.loadView_congr fun b _ hb => h b (by omega)]
  · simp only [State.setReg, State.loadByte_storeByte]
    rw [h a ha]

theorem scaledSum_congr {get get' : Nat → Byte} {cap n : Nat} (h : ∀ i, i < n → get i = get' i) :
    scaledSum get cap n = scaledSum get' cap n := by
  induction n with
  | zero => rfl
  | succ n ih => rw [scaledSum, scaledSum, ih fun i hi => h i (by omega), h n (by omega)]

theorem emptyCount_congr {get get' : Nat → Byte} {n : Nat} (h : ∀ i, i < n → get i = get' i) :
    emptyCount get n = emptyCount get' n := by
  induction n with
  | zero => rfl
  | succ n ih => rw [emptyCount, emptyCount, ih fun i hi => h i (by omega), h n (by omega)]

end Sys2Proof.Machine
end

section
/-! States that differ only in hidden bytes of STORE: what they share, and that every shared
operation answers them alike (10_state.md R34; 92_eei_decisions.md D27). -/

namespace Sys2Proof.Machine

open Sys2Proof.Safety

variable {s t : State}

section
variable (h : Indistinguishable s t)
include h

theorem life_eq_of_indistinguishable : t.life = s.life := (congrArg State.life h.1 :)

theorem fault_eq_of_indistinguishable : t.fault = s.fault := (congrArg State.fault h.1 :)

theorem capBytes_eq_of_indistinguishable : t.capBytes = s.capBytes :=
  (congrArg State.capBytes h.1 :)

theorem config?_eq_of_indistinguishable : t.config? = s.config? := (congrArg State.config? h.1 :)

theorem configWord_eq_of_indistinguishable : configWord t = configWord s :=
  (congrArg configWord h.1 :)

theorem nextInput?_eq_of_indistinguishable : t.nextInput? = s.nextInput? :=
  (congrArg State.nextInput? h.1 :)

theorem indistinguishable_respond (st : Status) (d0 d1 : DWord) :
    Indistinguishable (s.respond st d0 d1) (t.respond st d0 d1) :=
  ⟨congrArg (·.respond st d0 d1) h.1, h.2⟩

theorem indistinguishable_raiseFault (c : FaultCause) :
    Indistinguishable (s.raiseFault c) (t.raiseFault c) :=
  ⟨congrArg (·.raiseFault c) h.1, h.2⟩

theorem indistinguishable_respondFaulted : Indistinguishable s.respondFaulted t.respondFaulted :=
  ⟨congrArg State.respondFaulted h.1, h.2⟩

theorem indistinguishable_advance : Indistinguishable s.advance t.advance :=
  ⟨congrArg State.advance h.1, h.2⟩

theorem indistinguishable_freed :
    Indistinguishable { s with life := .freed } { t with life := .freed } :=
  ⟨congrArg (fun u : State => { u with life := .freed }) h.1, fun hlife => nomatch hlife⟩

theorem indistinguishable_takeReset : Indistinguishable s.takeReset t.takeReset := by
  refine ⟨?_, fun hlife => nomatch hlife⟩
  obtain ⟨heq, -⟩ := h
  rw [heq]
  rfl

end

/-- Indistinguishable states hold the same image (10_state.md R34). -/
theorem loadByte_eq_of_indistinguishable (h : Indistinguishable s t) {c : ActiveConfig}
    (hl : s.life = .active) (hc : s.config? = some c) {a : Nat} (ha : a < c.imageLen) :
    s.loadByte a = t.loadByte a :=
  h.2 hl a (State.initImageLen_eq hc ▸ ha)

theorem getReg_eq_of_indistinguishable (h : Indistinguishable s t) {c : ActiveConfig}
    (hl : s.life = .active) (hc : s.config? = some c) {i : Nat} (hi : i < c.regCount) :
    s.getReg c.width i = t.getReg c.width i := by
  obtain ⟨-, -, hmin, -⟩ := State.config?_eq_some.mp hc
  refine State.getReg_congr_bytes c.width i fun a _ ha => ?_
  exact loadByte_eq_of_indistinguishable h hl hc
    (ha.trans_le (c.width.access_inside c.exponent i hmin hi))

/-- Two states that agree on the image and on everything but STORE cannot be told apart after writes
to STORE that agree there too. -/
theorem indistinguishable_of_writes (h : Indistinguishable s t) {s' t' : State}
    (hs : s' = { s with store := s'.store }) (ht : t' = { t with store := t'.store })
    (hb : ∀ a, a < initImageLen s.cfgR s.cfgB → s'.loadByte a = t'.loadByte a) :
    Indistinguishable s' t' := by
  obtain ⟨heq, -⟩ := h
  generalize s'.store = σ at hs
  generalize t'.store = τ at ht
  subst hs ht
  refine ⟨?_, fun _ => hb⟩
  rw [heq]

theorem indistinguishable_setReg (h : Indistinguishable s t) {c : ActiveConfig}
    (hl : s.life = .active) (hc : s.config? = some c) {i : Nat} (hi : i < c.regCount) (v : Byte) :
    Indistinguishable (s.setReg c.width i v) (t.setReg c.width i v) := by
  obtain ⟨-, -, hmin, -⟩ := State.config?_eq_some.mp hc
  refine indistinguishable_of_writes h (s.setReg_eta _ _ _) (t.setReg_eta _ _ _) fun a ha => ?_
  rw [State.initImageLen_eq hc] at ha
  exact State.loadByte_setReg_congr v (c.width.access_inside c.exponent i hmin hi)
    (fun b hb => loadByte_eq_of_indistinguishable h hl hc hb) ha

theorem indistinguishable_updateReg (h : Indistinguishable s t) {c : ActiveConfig}
    (hl : s.life = .active) (hc : s.config? = some c) {q : Nat} (hq : q < c.regCount) (k : Nat) :
    Indistinguishable (s.updateReg c.width q k) (t.updateReg c.width q k) := by
  simp only [State.updateReg, ← getReg_eq_of_indistinguishable h hl hc hq]
  split
  · exact indistinguishable_setReg h hl hc hq _
  · exact h

/-- INIT zero-fills the whole image, so nothing of the states before is left in it
(43_counter_control.md R202). -/
theorem indistinguishable_initialise (h : Indistinguishable s t) (rw be : Byte) :
    Indistinguishable (s.initialise rw be) (t.initialise rw be) := by
  refine ⟨congrArg (fun u : State => { u.initialise rw be with
    store := (t.initialise rw be).store, storeEpoch := t.storeEpoch }) h.1,
    fun _ a (ha : a < initImageLen rw be) => ?_⟩
  rw [State.loadByte_initialise, State.loadByte_initialise, if_pos ha, if_pos ha]

theorem rawEstimate_eq_of_indistinguishable (h : Indistinguishable s t) {c : ActiveConfig}
    (hl : s.life = .active) (hc : s.config? = some c) : s.rawEstimate c = t.rawEstimate c := by
  rw [State.rawEstimate, State.rawEstimate,
    scaledSum_congr fun i hi => getReg_eq_of_indistinguishable h hl hc hi]

theorem emptyRegs_eq_of_indistinguishable (h : Indistinguishable s t) {c : ActiveConfig}
    (hl : s.life = .active) (hc : s.config? = some c) : s.emptyRegs c = t.emptyRegs c :=
  emptyCount_congr fun _ hi => getReg_eq_of_indistinguishable h hl hc hi

end Sys2Proof.Machine
end

section
/-! Every command answers states that differ only in hidden bytes of STORE alike (10_state.md R34;
92_eei_decisions.md D27). -/

namespace Sys2Proof.Machine

open Sys2Proof.Safety

variable {s t : State} {a b : Answer}

section
variable (h : Indistinguishable s t)
include h

theorem unlessFaulted_indistinguishable (hab : s.fault = false → AnswersIndistinguishable a b) :
    AnswersIndistinguishable (unlessFaulted s a) (unlessFaulted t b) := by
  have hft := fault_eq_of_indistinguishable h
  cases hf : s.fault with
  | true =>
    rw [unlessFaulted_true hf, unlessFaulted_true (hft.trans hf)]
    exact indistinguishable_respondFaulted h
  | false =>
    rw [unlessFaulted_false hf, unlessFaulted_false (hft.trans hf)]
    exact hab hf

/-- The gate's own answers tell the states apart no more than the rule in ACTIVE does
(30_encoding.md R80, R81). -/
theorem gate_indistinguishable (st : Status) (d0 : DWord) (cause : FaultCause)
    (hab : s.life = .active → AnswersIndistinguishable a b) :
    AnswersIndistinguishable
      (unlessFaulted s (lifecycleGate s (.next (s.respond st d0 0)) a cause))
      (unlessFaulted t (lifecycleGate t (.next (t.respond st d0 0)) b cause)) := by
  refine unlessFaulted_indistinguishable h fun _ => ?_
  have hlt := life_eq_of_indistinguishable h
  cases hl : s.life with
  | uninit =>
    rw [lifecycleGate_uninit hl, lifecycleGate_uninit (hlt.trans hl)]
    exact indistinguishable_respond h _ _ _
  | active =>
    rw [lifecycleGate_active hl, lifecycleGate_active (hlt.trans hl)]
    exact hab hl
  | freed =>
    rw [lifecycleGate_freed hl, lifecycleGate_freed (hlt.trans hl)]
    exact indistinguishable_raiseFault h cause

theorem withConfig_indistinguishable {run run' : ActiveConfig → Answer}
    (hrun : ∀ c, s.config? = some c → AnswersIndistinguishable (run c) (run' c)) :
    AnswersIndistinguishable (withConfig s run) (withConfig t run') := by
  unfold withConfig
  rw [config?_eq_of_indistinguishable h]
  cases hc : s.config? with
  | none => exact rfl
  | some c => exact hrun c hc

theorem rgetActive_indistinguishable (index : DWord) {c : ActiveConfig} (hl : s.life = .active)
    (hc : s.config? = some c) :
    AnswersIndistinguishable (rgetActive index s c) (rgetActive index t c) := by
  unfold rgetActive
  split
  · exact indistinguishable_raiseFault h _
  · rename_i hlt
    rw [getReg_eq_of_indistinguishable h hl hc (Nat.lt_of_not_le hlt)]
    exact indistinguishable_respond h _ _ _

theorem rdbyteActive_indistinguishable (offset : DWord) {c : ActiveConfig} (hl : s.life = .active)
    (hc : s.config? = some c) :
    AnswersIndistinguishable (rdbyteActive offset s c) (rdbyteActive offset t c) := by
  unfold rdbyteActive
  split
  · exact indistinguishable_raiseFault h _
  · rename_i hlt
    rw [loadByte_eq_of_indistinguishable h hl hc (Nat.lt_of_not_le hlt)]
    exact indistinguishable_respond h _ _ _

theorem countActive_indistinguishable {c : ActiveConfig} (hl : s.life = .active)
    (hc : s.config? = some c) : AnswersIndistinguishable (countActive s c) (countActive t c) := by
  unfold countActive
  rw [rawEstimate_eq_of_indistinguishable h hl hc, emptyRegs_eq_of_indistinguishable h hl hc]
  exact indistinguishable_respond h _ _ _

theorem execInit_indistinguishable (rw be : Byte) (tv hv : Bool) :
    AnswersIndistinguishable (execInit rw be tv hv s) (execInit rw be tv hv t) := by
  refine unlessFaulted_indistinguishable h fun _ => ?_
  rw [capBytes_eq_of_indistinguishable h]
  split
  · exact indistinguishable_respond (indistinguishable_initialise h rw be) _ _ _
  · exact indistinguishable_respond h _ _ _

/-- A command answers indistinguishable states alike. -/
theorem exec_indistinguishable (i : Instr) : AnswersIndistinguishable (exec i s) (exec i t) := by
  cases i with
  | init rw be tv hv => exact execInit_indistinguishable h rw be tv hv
  | add hash =>
    refine gate_indistinguishable h _ _ _ fun hl => withConfig_indistinguishable h fun c hc => ?_
    exact indistinguishable_respond
      (indistinguishable_updateReg h hl hc (bucket_lt c hash) _) _ _ _
  | count =>
    exact gate_indistinguishable h _ _ _ fun hl => withConfig_indistinguishable h fun _ hc =>
      countActive_indistinguishable h hl hc
  | free =>
    exact gate_indistinguishable h _ _ _ fun _ =>
      indistinguishable_respond (indistinguishable_freed h) _ _ _
  | rget index =>
    exact gate_indistinguishable h _ _ _ fun hl => withConfig_indistinguishable h fun _ hc =>
      rgetActive_indistinguishable h index hl hc
  | rdbyte offset =>
    exact gate_indistinguishable h _ _ _ fun hl => withConfig_indistinguishable h fun _ hc =>
      rdbyteActive_indistinguishable h offset hl hc
  | extract hash =>
    exact gate_indistinguishable h _ _ _ fun _ => withConfig_indistinguishable h fun _ _ =>
      indistinguishable_respond h _ _ _
  | rdcfg =>
    refine unlessFaulted_indistinguishable h fun _ => ?_
    rw [configWord_eq_of_indistinguishable h, capBytes_eq_of_indistinguishable h]
    exact indistinguishable_respond h _ _ _

theorem serveInput_indistinguishable (x : HostInput) :
    AnswersIndistinguishable (serveInput x s) (serveInput x t) := by
  cases x with
  | reset => exact indistinguishable_takeReset h
  | request q =>
    simp only [serveInput, serveRequest]
    split
    · exact unlessFaulted_indistinguishable h fun _ => indistinguishable_respond h _ _ _
    · exact exec_indistinguishable h _

end

theorem advanceAnswer_indistinguishable (h : AnswersIndistinguishable a b) :
    AnswersIndistinguishable (advanceAnswer a) (advanceAnswer b) := by
  match a, b with
  | .next _, .next _ => exact indistinguishable_advance h
  | .fault _, .fault _ => exact h
  | .refused _, .refused _ => exact h

/-- A step answers indistinguishable states alike. -/
theorem step_indistinguishable (h : Indistinguishable s t) :
    AnswersIndistinguishable (step s) (step t) := by
  unfold step serve
  rw [nextInput?_eq_of_indistinguishable h]
  cases s.nextInput? with
  | none => exact h
  | some x => exact advanceAnswer_indistinguishable (serveInput_indistinguishable h x)

end Sys2Proof.Machine
end

section
/-! The obligations of the hidden bytes and of the bytes of an access. -/

namespace Sys2Proof.Proofs

open Sys2Proof.Machine Sys2Proof.Safety

/-- Settles O58: every operation a step is made of reads STORE inside the image alone, and writes
there the same bytes. -/
theorem hiddenBytesNeverObserved : Obligations.HiddenBytesNeverObserved := fun _ _ =>
  step_indistinguishable

/-- Settles O52: an access lies inside the image, and the read is made of the access's bytes. -/
theorem accessStaysInsideImage : Obligations.AccessStaysInsideImage := fun w b i hb hi =>
  ⟨w.access_inside b i hb hi, fun _ _ => State.getReg_congr_bytes w i⟩

end Sys2Proof.Proofs
end

section
/-! What each command answers behind the fault mask, by lifecycle state (30_encoding.md R80, R81).
-/

namespace Sys2Proof.Machine

open Sys2Proof.Safety

variable {s t : State} {u a : Answer} {c : ActiveConfig} {cause : FaultCause}

theorem gate_of_uninit (hf : s.fault = false) (hl : s.life = .uninit) :
    unlessFaulted s (lifecycleGate s u a cause) = u := by
  rw [unlessFaulted_false hf, lifecycleGate_uninit hl]

theorem gate_of_active (hf : s.fault = false) (hl : s.life = .active) :
    unlessFaulted s (lifecycleGate s u a cause) = a := by
  rw [unlessFaulted_false hf, lifecycleGate_active hl]

theorem gate_of_freed (hf : s.fault = false) (hl : s.life = .freed) :
    unlessFaulted s (lifecycleGate s u a cause) = .next (s.raiseFault cause) := by
  rw [unlessFaulted_false hf, lifecycleGate_freed hl]

theorem exponent_lt_of_ready (h : Ready s c) : c.exponent < 64 := by
  obtain ⟨-, -, hc⟩ := h
  obtain ⟨-, -, -, hexp, -⟩ := State.config?_eq_some.mp hc
  exact hexp

/-- FREE in ACTIVE changes STATE alone (43_counter_control.md R215). -/
theorem exec_free_of_active (hf : s.fault = false) (hl : s.life = .active) :
    exec .free s = .next ({ s with life := .freed }.respond .ok 0 0) :=
  gate_of_active hf hl

theorem exec_rget_of_ready (h : Ready s c) (index : DWord) :
    exec (.rget index) s = rgetActive index s c :=
  run_of_ready h _ (rgetActive index s) _

theorem exec_rdbyte_of_ready (h : Ready s c) (offset : DWord) :
    exec (.rdbyte offset) s = rdbyteActive offset s c :=
  run_of_ready h _ (rdbyteActive offset s) _

/-- EXTRACT's own rule answers the bucket and the ranks (41_rank_extractor.md R150). -/
theorem exec_extract_of_ready (h : Ready s c) (hash : HashIn) :
    exec (.extract hash) s =
      .next (s.respond .ok (BitVec.ofNat 64 (bucket c hash))
        (rankWords c.width (rank c.width hash))) :=
  run_of_ready h _ (extractActive hash s) _

/-- RDCFG stands behind no gate (30_encoding.md R81). -/
theorem exec_rdcfg (hf : s.fault = false) :
    exec .rdcfg s = .next (s.respond .ok (configWord s) s.capBytes) :=
  unlessFaulted_false hf

theorem rgetActive_of_le {index : DWord} (h : c.regCount ≤ index.toNat) :
    rgetActive index s c = .next (s.raiseFault .indexOutOfRange) := if_pos h

theorem rgetActive_of_lt {index : DWord} (h : index.toNat < c.regCount) :
    rgetActive index s c =
      .next (s.respond .ok ((s.getReg c.width index.toNat).setWidth 64) 0) :=
  if_neg (Nat.not_le.mpr h)

theorem rdbyteActive_of_le {offset : DWord} (h : c.imageLen ≤ offset.toNat) :
    rdbyteActive offset s c = .next (s.raiseFault .byteOffsetOutOfRange) := if_pos h

theorem rdbyteActive_of_lt {offset : DWord} (h : offset.toNat < c.imageLen) :
    rdbyteActive offset s c = .next (s.respond .ok ((s.loadByte offset.toNat).setWidth 64) 0) :=
  if_neg (Nat.not_le.mpr h)

/-- A word put together from two parts, as a number. -/
theorem append_toNat {m n : Nat} (x : BitVec m) (y : BitVec n) :
    (x ++ y).toNat = 2 ^ n * x.toNat + y.toNat := by
  rw [BitVec.toNat_append, Nat.shiftLeft_eq, Nat.mul_comm, Nat.two_pow_add_eq_or_of_lt y.isLt]

/-- EXTRACT's second data word holds the rank below the saturated rank (41_rank_extractor.md R150).
-/
theorem rankWords_eq (w : Width) {k : Nat} (hk : k < 2 ^ 16) :
    rankWords w k = BitVec.ofNat 64 (2 ^ 16 * saturate w k + k) := by
  have hsat : saturate w k ≤ k := Nat.min_le_left _ _
  refine BitVec.eq_of_toNat_eq ?_
  rw [rankWords, BitVec.toNat_setWidth, append_toNat]
  simp only [BitVec.toNat_ofNat]
  rw [Nat.mod_eq_of_lt hk, Nat.mod_eq_of_lt (hsat.trans_lt hk)]

/-- The configuration word's fields at their places (43_counter_control.md R220). -/
theorem configWord_eq (s : State) :
    configWord s = BitVec.ofNat 64
      (2 ^ 24 * 8 + 2 ^ 16 * s.cfgB.toNat + 2 ^ 8 * s.cfgR.toNat + s.life.code.toNat) := by
  refine BitVec.eq_of_toNat_eq ?_
  rw [configWord, BitVec.toNat_setWidth, BitVec.toNat_ofNat]
  simp only [append_toNat, BitVec.toNat_ofNat, Config.idxBytes]
  omega

end Sys2Proof.Machine
end

section
/-! A command's answer by the contract violation it commits, and its status (60_exceptions.md R240
to R246). -/

namespace Sys2Proof.Machine

open Sys2Proof.Safety

variable {s t : State} {a : Answer} {v cause : FaultCause}

/-- The answer takes the fault entry of the cause, or, where there is none, keeps FAULT clear and
its cause (60_exceptions.md R243, R246). -/
def FaultsAs (s : State) (v : FaultCause) (a : Answer) : Prop :=
  (v ≠ .none → a = .next (s.raiseFault v)) ∧
  (v = .none → ∃ t, a = .next t ∧ t.fault = false ∧ t.faultCause = s.faultCause ∧ t.rspStatus ≠ 7)

theorem faultsAs_raiseFault (hv : v ≠ .none) : FaultsAs s v (.next (s.raiseFault v)) :=
  ⟨fun _ => rfl, fun h => absurd h hv⟩

/-- Status 7 is the fault response's alone (60_exceptions.md R240). -/
theorem Status.code_ne_seven {st : Status} (hst : st ≠ .fault) : st.code ≠ 7 := by
  cases st with
  | fault => exact absurd rfl hst
  | _ => decide

theorem faultsAs_respond {st : Status} {d0 d1 : DWord} (hst : st ≠ .fault) (hf : t.fault = false)
    (hcause : t.faultCause = s.faultCause) : FaultsAs s .none (.next (t.respond st d0 d1)) :=
  ⟨fun h => absurd rfl h, fun _ => ⟨_, rfl, hf, hcause, Status.code_ne_seven hst⟩⟩

/-- Behind the gate the violation is the one of ACTIVE's own rule, or FREED's (30_encoding.md R81).
-/
theorem gate_faultsAs {st : Status} {d0 d1 : DWord} (hst : st ≠ .fault) (hcause : cause ≠ .none)
    (hf : s.fault = false) (huninit : s.life = .uninit → v = .none)
    (hactive : s.life = .active → FaultsAs s v a) (hfreed : s.life = .freed → v = cause) :
    FaultsAs s v (unlessFaulted s (lifecycleGate s (.next (s.respond st d0 d1)) a cause)) := by
  cases hl : s.life with
  | uninit =>
    rw [gate_of_uninit hf hl, huninit hl]
    exact faultsAs_respond hst hf rfl
  | active =>
    rw [gate_of_active hf hl]
    exact hactive hl
  | freed =>
    rw [gate_of_freed hf hl, hfreed hl]
    exact faultsAs_raiseFault hcause

section
variable {c : ActiveConfig} (hf : s.fault = false) (hl : s.life = .active) (hc : s.config? = some c)
include hf hl hc

theorem rgetActive_faultsAs (index : DWord) :
    FaultsAs s (violation (.rget index) s) (rgetActive index s c) := by
  obtain ⟨-, hb, -⟩ := State.config?_eq_some.mp hc
  simp only [violation, hl, ← hb]
  by_cases hle : 2 ^ c.exponent ≤ index.toNat
  · rw [rgetActive_of_le hle, if_pos hle]
    exact faultsAs_raiseFault (by decide)
  · rw [rgetActive_of_lt (Nat.lt_of_not_le hle), if_neg hle]
    exact faultsAs_respond (by decide) hf rfl

theorem rdbyteActive_faultsAs (offset : DWord) :
    FaultsAs s (violation (.rdbyte offset) s) (rdbyteActive offset s c) := by
  simp only [violation, hl, State.initImageLen_eq hc]
  by_cases hle : c.imageLen ≤ offset.toNat
  · rw [rdbyteActive_of_le hle, if_pos hle]
    exact faultsAs_raiseFault (by decide)
  · rw [rdbyteActive_of_lt (Nat.lt_of_not_le hle), if_neg hle]
    exact faultsAs_respond (by decide) hf rfl

end

/-- A command takes the fault of the violation it commits, and no other (60_exceptions.md R243). -/
theorem exec_faultsAs (i : Instr) (hf : s.fault = false)
    (hc : s.life = .active → s.config?.isSome = true) : FaultsAs s (violation i s) (exec i s) := by
  have hconfig (hl : s.life = .active) {run : ActiveConfig → Answer}
      (hrun : ∀ c, s.config? = some c → FaultsAs s (violation i s) (run c)) :
      FaultsAs s (violation i s) (withConfig s run) := by
    obtain ⟨c, hcfg⟩ := Option.isSome_iff_exists.mp (hc hl)
    exact withConfig_some (run := run) hcfg ▸ hrun c hcfg
  have huninit (hl : s.life = .uninit) : violation i s = .none := by simp only [violation, hl]
  cases i with
  | init rw be tv hv =>
    have hnone : violation (.init rw be tv hv) s = .none := by
      cases hl : s.life <;> simp only [violation, hl]
    rw [hnone]
    by_cases hok : validate rw be tv hv s.capBytes.toNat = .ok
    · rw [exec_init_of_validate_ok hf hok]
      exact faultsAs_respond (by decide) hf rfl
    · rw [exec_init_of_validate_fails hf rfl hok]
      refine faultsAs_respond (fun hst => ?_) hf rfl
      exact absurd (hst ▸ validate_code rw be tv hv s.capBytes.toNat) (by decide)
  | rdcfg =>
    have hnone : violation .rdcfg s = .none := by
      cases hl : s.life <;> simp only [violation, hl]
    rw [hnone, exec_rdcfg hf]
    exact faultsAs_respond (by decide) hf rfl
  | free =>
    refine gate_faultsAs (by decide) (by decide) hf huninit (fun hl => ?_) fun hl => ?_
    · simp only [violation, hl]
      exact faultsAs_respond (by decide) hf rfl
    · simp only [violation, hl]
  | rget index =>
    exact gate_faultsAs (by decide) (by decide) hf huninit
      (fun hl => hconfig hl fun c hcfg => rgetActive_faultsAs hf hl hcfg index)
      fun hl => by simp only [violation, hl]
  | rdbyte offset =>
    exact gate_faultsAs (by decide) (by decide) hf huninit
      (fun hl => hconfig hl fun c hcfg => rdbyteActive_faultsAs hf hl hcfg offset)
      fun hl => by simp only [violation, hl]
  | add | count | extract =>
    refine gate_faultsAs (by decide) (by decide) hf huninit
      (fun hl => hconfig hl fun c hcfg => ?_) fun hl => by simp only [violation, hl]
    simp only [violation, hl]
    exact faultsAs_respond (by decide) (by simpa using hf) (by simp)

/-- A gated command answers its UNINIT status, OK or the fault response, if its own rule answers one
of these two (30_encoding.md R81; 60_exceptions.md R240). -/
theorem gate_rspStatus {st : Status} {d0 d1 : DWord}
    (h : unlessFaulted s (lifecycleGate s (.next (s.respond st d0 d1)) a cause) = .next t)
    (ha : a = .next t → t.rspStatus = 0 ∨ t.rspStatus = 7) :
    t.rspStatus = st.code ∨ t.rspStatus = 0 ∨ t.rspStatus = 7 := by
  rcases unlessFaulted_cases h with ⟨-, rfl⟩ | ⟨-, h⟩
  · exact .inr (.inr rfl)
  · rcases lifecycleGate_cases h with ⟨-, h⟩ | ⟨-, h⟩ | ⟨-, rfl⟩
    · cases h
      exact .inl rfl
    · exact .inr (ha h)
    · exact .inr (.inr rfl)

theorem rgetActive_rspStatus {index : DWord} {c : ActiveConfig}
    (h : rgetActive index s c = .next t) : t.rspStatus = 0 ∨ t.rspStatus = 7 := by
  unfold rgetActive at h
  split at h <;> cases h
  · exact .inr rfl
  · exact .inl rfl

theorem rdbyteActive_rspStatus {offset : DWord} {c : ActiveConfig}
    (h : rdbyteActive offset s c = .next t) : t.rspStatus = 0 ∨ t.rspStatus = 7 := by
  unfold rdbyteActive at h
  split at h <;> cases h
  · exact .inr rfl
  · exact .inl rfl

/-- The statuses INIT can answer (43_counter_control.md R200). -/
theorem execInit_rspStatus {rw be : Byte} {tv hv : Bool} (h : execInit rw be tv hv s = .next t) :
    t.rspStatus.toNat ≤ 5 ∨ t.rspStatus.toNat = 7 := by
  rcases init_cases h with ⟨-, rfl⟩ | ⟨-, -, rfl⟩ | ⟨-, -, rfl⟩
  · exact .inr rfl
  · exact .inl (validate_code rw be tv hv s.capBytes.toNat)
  · exact .inl (Nat.zero_le _)

/-- A command that answers neither OK nor the fault response writes the response alone
(60_exceptions.md R241). -/
theorem exec_frame_of_rspStatus {i : Instr} (hx : exec i s = .next t) (h0 : t.rspStatus.toNat ≠ 0)
    (h7 : t.rspStatus.toNat ≠ 7) :
    s.fault = false ∧
      t = { s with rspStatus := t.rspStatus, rspData0 := t.rspData0, rspData1 := t.rspData1 } := by
  rcases exec_cases hx with ⟨-, rfl⟩ | ⟨hf, _, _, _, -, rfl⟩ | ⟨-, _, -, rfl⟩ |
    ⟨-, _, _, _, _, -, -, rfl⟩ | ⟨_, _, -, -, rfl⟩ | ⟨-, -, -, rfl⟩
  case inr.inl => exact ⟨hf, rfl⟩
  case inl | inr.inr.inl => exact absurd rfl h7
  all_goals exact absurd rfl h0

/-- A command that is none of INIT, ADD and FREE writes the response, or takes a fault (20_memory.md
R57). -/
theorem exec_inspection_cases {i : Instr} (hinit : mnemonic i ≠ "INIT") (hadd : mnemonic i ≠ "ADD")
    (hfree : i ≠ .free) (hx : exec i s = .next t) :
    (∃ st d0 d1, t = s.respond st d0 d1) ∨ ∃ c, t = s.raiseFault c := by
  rcases exec_cases hx with ⟨-, rfl⟩ | ⟨-, _, _, _, -, rfl⟩ | ⟨-, _, -, rfl⟩ |
    ⟨-, _, _, _, _, rfl, -, -⟩ | ⟨_, _, rfl, -, -⟩ | ⟨-, rfl, -, -⟩
  · exact .inl ⟨_, _, _, rfl⟩
  · exact .inl ⟨_, _, _, rfl⟩
  · exact .inr ⟨_, rfl⟩
  · exact absurd rfl hinit
  · exact absurd rfl hadd
  · exact absurd rfl hfree

end Sys2Proof.Machine
end

section
/-! The obligations of the lifecycle gate, the statuses and the frames of the commands. -/

namespace Sys2Proof.Proofs

open Sys2Proof.Machine Sys2Proof.Safety

/-- Settles O13: the gate's column for UNINIT. -/
theorem gateInUninit : Obligations.GateInUninit := fun _ hf hl =>
  ⟨fun _ => gate_of_uninit hf hl, gate_of_uninit hf hl, gate_of_uninit hf hl,
    fun _ => gate_of_uninit hf hl, fun _ => gate_of_uninit hf hl, fun _ => gate_of_uninit hf hl⟩

/-- Settles O14: the gate's column for FREED. -/
theorem gateInFreed : Obligations.GateInFreed := by
  intro s hf hl
  refine ⟨fun i hi => ?_, gate_of_freed hf hl⟩
  rcases hi with ⟨h, rfl⟩ | rfl | ⟨a, rfl⟩ | ⟨a, rfl⟩ | ⟨h, rfl⟩ <;> exact gate_of_freed hf hl

/-- Settles O15: each command, in each lifecycle state, takes the fault of its violation. -/
theorem faultsExactlyOnViolations : Obligations.FaultsExactlyOnViolations := fun i _ hf hc =>
  exec_faultsAs i hf hc

/-- Settles O17: a command's status is INIT's, or one the gate or its own rule gives. -/
theorem statusesPerCommand : Obligations.StatusesPerCommand := by
  intro i s t hx
  refine ⟨?_, exec_frame_of_rspStatus hx⟩
  have hok {d0 : DWord} {a : Answer} {cause : FaultCause}
      (h : unlessFaulted s (lifecycleGate s (.next (s.respond .ok d0 0)) a cause) = .next t)
      (ha : a = .next t → t.rspStatus = 0 ∨ t.rspStatus = 7) : t.rspStatus.toNat ∈ [0, 7] := by
    rcases gate_rspStatus h ha with hst | hst | hst <;> rw [hst] <;> decide
  have hnotInit {a : Answer} {cause : FaultCause}
      (h : unlessFaulted s (lifecycleGate s (.next (s.respond .notInitialized 0 0)) a cause) =
        .next t)
      (ha : a = .next t → t.rspStatus = 0 ∨ t.rspStatus = 7) : t.rspStatus.toNat ∈ [0, 7, 8] := by
    rcases gate_rspStatus h ha with hst | hst | hst <;> rw [hst] <;> decide
  cases i with
  | init rw be tv hv =>
    have hst := execInit_rspStatus hx
    simp only [List.mem_cons, List.not_mem_nil, or_false]
    omega
  | add | count =>
    refine hok hx fun h => ?_
    obtain ⟨c, -, h⟩ := withConfig_cases h
    cases h
    exact .inl rfl
  | free =>
    refine hok hx fun h => ?_
    cases h
    exact .inl rfl
  | rget index =>
    refine hnotInit hx fun h => ?_
    obtain ⟨c, -, h⟩ := withConfig_cases h
    exact rgetActive_rspStatus h
  | rdbyte offset =>
    refine hnotInit hx fun h => ?_
    obtain ⟨c, -, h⟩ := withConfig_cases h
    exact rdbyteActive_rspStatus h
  | extract hash =>
    refine hnotInit hx fun h => ?_
    obtain ⟨c, -, h⟩ := withConfig_cases h
    cases h
    exact .inl rfl
  | rdcfg =>
    rcases unlessFaulted_cases hx with ⟨-, rfl⟩ | ⟨-, h⟩
    · exact .tail _ (.head _)
    · cases h
      exact .head _

/-- Settles O34: FREE's own rule in ACTIVE. -/
theorem freeReleases : Obligations.FreeReleases := fun _ => exec_free_of_active

/-- Settles O35: an index below m is in range. -/
theorem rgetReturnsRegister : Obligations.RgetReturnsRegister := by
  intro s c index h hi
  rw [exec_rget_of_ready h, rgetActive_of_lt hi, BitVec.ofNat_toNat]
  rfl

/-- Settles O36: an offset below L is in range. -/
theorem rdbyteReturnsByte : Obligations.RdbyteReturnsByte := by
  intro s c offset h ho
  rw [exec_rdbyte_of_ready h, rdbyteActive_of_lt ho, BitVec.ofNat_toNat]
  rfl

/-- Settles O37: an index from m on, or an offset from L on, is out of range. -/
theorem rangeFaults : Obligations.RangeFaults := fun _ _ a h =>
  ⟨fun hi => (exec_rget_of_ready h a).trans (rgetActive_of_le hi),
    fun ho => (exec_rdbyte_of_ready h a).trans (rdbyteActive_of_le ho)⟩

/-- Settles O38: EXTRACT's own rule, and the ranges of the bucket and the rank. -/
theorem extractReportsBucketAndRank : Obligations.ExtractReportsBucketAndRank := by
  intro s c h hready
  have hrank : rank c.width h < 2 ^ 16 := (rank_le c.width h).trans_lt (by cases c.width <;> decide)
  refine ⟨?_, ?_, hrank⟩
  · rw [exec_extract_of_ready hready, rankWords_eq _ hrank]
    rfl
  · exact (bucket_lt c h).trans_le
      (Nat.pow_le_pow_right (by decide) (exponent_lt_of_ready hready).le)

/-- Settles O39: RDCFG stands behind no gate, and its word's fields do not overlap. -/
theorem rdcfgReportsConfiguration : Obligations.RdcfgReportsConfiguration := by
  intro s hf
  rw [exec_rdcfg hf, configWord_eq]
  rfl

/-- Settles O40: an inspection command writes the response or takes a fault, and neither touches
STORE. -/
theorem inspectionFrame : Obligations.InspectionFrame := by
  intro i s t hi hx
  obtain ⟨hinit, hadd, hfree⟩ : mnemonic i ≠ "INIT" ∧ mnemonic i ≠ "ADD" ∧ i ≠ .free := by
    rcases hi with rfl | ⟨a, rfl⟩ | ⟨a, rfl⟩ | ⟨h, rfl⟩ | rfl <;> simp [mnemonic]
  rcases exec_inspection_cases hinit hadd hfree hx with ⟨st, d0, d1, rfl⟩ | ⟨c, rfl⟩
  · exact ⟨rfl, fun _ => rfl, fun _ => ⟨rfl, rfl⟩⟩
  · exact ⟨rfl, fun _ => rfl, fun h7 => absurd rfl h7⟩

/-- Settles O41: of a command's next states only INIT's success and FREE's release write STATE, and
only the first writes CFG_R and CFG_B. -/
theorem writersOfTheConfiguration : Obligations.WritersOfTheConfiguration := by
  intro i s t hx
  rcases exec_cases hx with ⟨-, rfl⟩ | ⟨-, _, _, _, -, rfl⟩ | ⟨-, _, -, rfl⟩ |
    ⟨-, _, _, _, _, rfl, -, rfl⟩ | ⟨_, _, -, -, rfl⟩ | ⟨-, rfl, hl, rfl⟩
  case inr.inr.inr.inl => exact ⟨fun _ => .inl ⟨rfl, rfl, rfl⟩, fun _ => ⟨rfl, rfl⟩⟩
  case inr.inr.inr.inr.inr => exact ⟨fun _ => .inr ⟨rfl, hl, rfl⟩, by simp⟩
  all_goals exact ⟨by simp, by simp⟩

/-- Settles O42: of a command's next states only INIT's success and ADD's update write STORE, and
none moves the host. -/
theorem writersOfStore : Obligations.WritersOfStore := by
  intro i s t hx
  obtain ⟨hpos, hscript, hcap, hepoch⟩ := exec_keeps_host hx
  have hstore (hinit : mnemonic i ≠ "INIT") (hadd : mnemonic i ≠ "ADD") : t.store = s.store := by
    rcases exec_cases hx with ⟨-, rfl⟩ | ⟨-, _, _, _, -, rfl⟩ | ⟨-, _, -, rfl⟩ |
      ⟨-, _, _, _, _, rfl, -, -⟩ | ⟨_, _, rfl, -, -⟩ | ⟨-, -, -, rfl⟩
    case inr.inr.inr.inl => exact absurd rfl hinit
    case inr.inr.inr.inr.inl => exact absurd rfl hadd
    all_goals rfl
  refine ⟨?_, hstore, hcap, hepoch, hscript, hpos⟩
  rintro ⟨a, hne⟩
  by_contra! hnot
  refine hne ?_
  rw [State.loadByte, State.loadByte, hstore hnot.1 hnot.2, hepoch]

end Sys2Proof.Proofs
end

section
/-! STORE as a string of register bits: what all registers, or all bytes, say about every bit
(40_register_file.md R101 to R111). -/

namespace Sys2Proof.Machine

variable {s t : State} {w : Width}

theorem Width.bits_pos (w : Width) : 0 < w.bits := by cases w <;> decide

/-- Every bit of STORE is a bit of one register (40_register_file.md R101 to R103). -/
theorem State.storeBit_eq_getReg_bit (s : State) (w : Width) (n : Nat) :
    s.storeBit n = (s.getReg w (n / w.bits)).getLsbD (n % w.bits) := by
  rw [State.getReg_bit, decide_eq_true (Nat.mod_lt _ w.bits_pos), Bool.true_and, Nat.div_add_mod]

/-- States with the same registers at some width hold the same bits. -/
theorem State.storeBit_eq_of_getReg_eq (h : ∀ i, s.getReg w i = t.getReg w i) (n : Nat) :
    s.storeBit n = t.storeBit n := by
  rw [s.storeBit_eq_getReg_bit w, t.storeBit_eq_getReg_bit w, h]

theorem State.registers_zero_iff (m : Nat) :
    (∀ i, i < m → s.getReg w i = 0) ↔ ∀ n, n < w.bits * m → s.storeBit n = false := by
  constructor
  · intro hreg n hn
    rw [s.storeBit_eq_getReg_bit w, hreg _ (Nat.div_lt_of_lt_mul hn)]
    exact BitVec.getLsbD_zero
  · intro hbit i hi
    refine BitVec.eq_of_getLsbD_eq fun p _ => ?_
    rw [State.getReg_bit]
    by_cases hp : p < w.bits
    · have hle := Nat.mul_le_mul_left w.bits (Nat.succ_le_of_lt hi)
      rw [Nat.mul_succ] at hle
      rw [hbit _ (by omega), Bool.and_false]
      exact BitVec.getLsbD_zero.symm
    · rw [decide_eq_false hp, Bool.false_and]
      exact BitVec.getLsbD_zero.symm

theorem State.bytes_zero_iff (len : Nat) :
    (∀ a, a < len → s.loadByte a = 0) ↔ ∀ n, n < 8 * len → s.storeBit n = false :=
  s.registers_zero_iff (w := .w8) len

/-- The data bytes of an image are exactly its registers' bits (20_memory.md R50;
40_register_file.md R111). -/
theorem Width.bits_mul_regCount (w : Width) {b : Nat} (hb : w.bMin ≤ b) :
    w.bits * 2 ^ b = 8 * (if w = .w6 then w.imageLen b - 1 else w.imageLen b) := by
  obtain ⟨k, rfl⟩ := Nat.exists_eq_add_of_le hb
  cases w <;> simp [Width.bits, Width.bMin, Width.imageLen, Nat.pow_add] <;> omega

/-- All registers are 0 exactly when all data bytes are (40_register_file.md R111). -/
theorem State.registers_zero_iff_bytes_zero {b : Nat} (hb : w.bMin ≤ b) :
    (∀ i, i < 2 ^ b → s.getReg w i = 0) ↔
      ∀ a, a < (if w = .w6 then w.imageLen b - 1 else w.imageLen b) → s.loadByte a = 0 := by
  rw [State.registers_zero_iff, State.bytes_zero_iff, w.bits_mul_regCount hb]

end Sys2Proof.Machine
end

section
/-! The obligations of the register file over all registers and bytes. -/

namespace Sys2Proof.Proofs

open Sys2Proof.Machine Sys2Proof.Safety

/-- Settles O49: the view's field of each register, cut at the byte bounds. -/
theorem width6RegistersByteByByte : Obligations.Width6RegistersByteByByte := by
  intro s k byte
  have h0 : byte (3 * k) < 256 := BitVec.isLt _
  have h1 : byte (3 * k + 1) < 256 := BitVec.isLt _
  have h2 : byte (3 * k + 2) < 256 := BitVec.isLt _
  have hget (j : Nat) (hj : j < 4) : (s.getReg .w6 (4 * k + j)).toNat =
      (byte (3 * k) + 2 ^ 8 * byte (3 * k + 1) + 2 ^ 16 * byte (3 * k + 2) +
        2 ^ 24 * byte (3 * k + 3)) / 2 ^ (6 * j) % 64 := by
    rw [s.getReg_w6_toNat, s.loadView_toNat, show (4 * k + j) / 4 = k by omega,
      show (4 * k + j) % 4 = j by omega]
  refine ⟨(hget 0 (by decide)).trans ?_, (hget 1 (by decide)).trans ?_,
    (hget 2 (by decide)).trans ?_, (hget 3 (by decide)).trans ?_⟩ <;> omega

/-- Settles O50: the write's bits are the register's, at every width. -/
theorem registerReadAfterWrite : Obligations.RegisterReadAfterWrite := fun s w i v hv =>
  ⟨s.getReg_setReg_same w i v hv, fun _ hj => s.getReg_setReg_other w v hv hj,
    fun n => s.setReg_bit w i n v hv⟩

/-- Settles O51: registers and data bytes are the same bits of STORE. -/
theorem zeroRegistersZeroBytes : Obligations.ZeroRegistersZeroBytes := fun _ _ _ hb =>
  State.registers_zero_iff_bytes_zero hb

end Sys2Proof.Proofs
end

section
/-! INIT's success and sequences of ADDs (43_counter_control.md R202, R211, R212). -/

namespace Sys2Proof.Machine

open Sys2Proof.Safety

variable {s t : State} {c : ActiveConfig}

theorem Status.eq_ok_of_code {st : Status} (h : st.code = 0) : st = .ok := by
  cases st with
  | ok => rfl
  | _ => exact absurd h (by decide)

/-- An INIT that responds OK passed every check (43_counter_control.md R201, R202). -/
theorem init_ok_cases {rw be : Byte} {tv hv : Bool} (hf : s.fault = false)
    (hx : exec (.init rw be tv hv) s = .next t) (h0 : t.rspStatus = 0) :
    validate rw be tv hv s.capBytes.toNat = .ok ∧ t = (s.initialise rw be).respond .ok 0 0 := by
  rcases init_cases hx with ⟨hf', -⟩ | ⟨-, hne, rfl⟩ | ⟨-, hok, rfl⟩
  · exact absurd hf' (by simp [hf])
  · exact absurd (Status.eq_ok_of_code h0) hne
  · exact ⟨hok, rfl⟩

/-- The state ADD's own rule leaves (43_counter_control.md R210). -/
def State.addItem (s : State) (c : ActiveConfig) (h : HashIn) : State :=
  (s.updateReg c.width (bucket c h) (rank c.width h)).respond .ok 0 0

theorem exec_add_eq_addItem (hready : Ready s c) (h : HashIn) :
    exec (.add h) s = .next (s.addItem c h) := exec_add_of_ready hready h

/-- ADD changes STORE and the response alone (43_counter_control.md R212 (d)). -/
theorem State.addItem_eta (h : HashIn) :
    s.addItem c h =
      { s with store := (s.addItem c h).store, rspStatus := 0, rspData0 := 0, rspData1 := 0 } :=
  congrArg (·.respond .ok 0 0) (s.updateReg_eta c.width (bucket c h) _)

theorem ready_addItem (hready : Ready s c) (h : HashIn) : Ready (s.addItem c h) c := by
  rw [State.addItem_eta]
  exact hready

theorem State.getReg_addItem_same (h : HashIn) :
    ((s.addItem c h).getReg c.width (bucket c h)).toNat =
      max (s.getReg c.width (bucket c h)).toNat (min (rank c.width h) c.width.cap) :=
  s.getReg_updateReg_same c.width (bucket c h) (rank c.width h)

theorem State.getReg_addItem_other (h : HashIn) {i : Nat} (hi : bucket c h ≠ i) :
    (s.addItem c h).getReg c.width i = s.getReg c.width i :=
  s.getReg_updateReg_other c.width _ hi.symm

/-- The second of two equal ADDs finds the register grown and writes nothing (43_counter_control.md
R212 (a)). -/
theorem State.addItem_addItem (h : HashIn) : (s.addItem c h).addItem c h = s.addItem c h := by
  have hle : saturate c.width (rank c.width h) ≤
      ((s.addItem c h).getReg c.width (bucket c h)).toNat := by
    rw [State.getReg_addItem_same]
    exact le_max_right _ _
  rw [State.addItem, State.updateReg_of_le _ _ hle]
  rfl

/-- ADD never decreases a register (10_state.md R29). -/
theorem State.getReg_le_addItem (h : HashIn) (i : Nat) :
    (s.getReg c.width i).toNat ≤ ((s.addItem c h).getReg c.width i).toNat := by
  by_cases hi : bucket c h = i
  · subst hi
    rw [State.getReg_addItem_same]
    exact le_max_left _ _
  · rw [State.getReg_addItem_other h hi]

/-- The saturated ranks of the items of one bucket (43_counter_control.md R212). -/
def bucketRanks (c : ActiveConfig) (i : Nat) (hs : List HashIn) : List Nat :=
  (hs.filter (fun h => bucket c h = i)).map (fun h => min (rank c.width h) c.width.cap)

theorem bucketRanks_cons (c : ActiveConfig) (i : Nat) (h : HashIn) (hs : List HashIn) :
    bucketRanks c i (h :: hs) =
      if bucket c h = i then min (rank c.width h) c.width.cap :: bucketRanks c i hs
      else bucketRanks c i hs := by
  unfold bucketRanks
  split <;> simp [*]

theorem bucketRanks_perm {hs hs' : List HashIn} (h : hs.Perm hs') (i : Nat) :
    (bucketRanks c i hs).Perm (bucketRanks c i hs') := (h.filter _).map _

/-- A sequence of ADDs leaves in each register the maximum of its old value and its bucket's ranks
(43_counter_control.md R212 (b)). -/
theorem addAll_of_ready (hready : Ready s c) (hs : List HashIn) :
    ∃ t, addAll hs s = .next t ∧ Ready t c ∧
      ∀ i, (t.getReg c.width i).toNat =
        (bucketRanks c i hs).foldr max (s.getReg c.width i).toNat := by
  induction hs generalizing s with
  | nil => exact ⟨s, rfl, hready, fun _ => rfl⟩
  | cons h hs ih =>
    obtain ⟨t, hrun, ht, hreg⟩ := ih (ready_addItem hready h)
    refine ⟨t, ?_, ht, fun i => ?_⟩
    · rw [addAll, exec_add_eq_addItem hready]
      exact hrun
    · rw [hreg, bucketRanks_cons]
      by_cases hi : bucket c h = i
      · subst hi
        rw [if_pos rfl, State.getReg_addItem_same, List.foldr_assoc, List.foldr_cons, max_comm]
      · rw [if_neg hi, State.getReg_addItem_other h hi]

end Sys2Proof.Machine
end

section
/-! The obligations of INIT and ADD over all registers. -/

namespace Sys2Proof.Proofs

open Sys2Proof.Machine Sys2Proof.Safety

/-- Settles O20: the zero-fill clears every byte a register has bits in. -/
theorem initLeavesZeroRegisters : Obligations.InitLeavesZeroRegisters := by
  intro s t rw be tv hv hf hx h0
  obtain ⟨hok, rfl⟩ := init_ok_cases hf hx h0
  obtain ⟨w, hc⟩ := State.config?_initialise hok
  obtain ⟨hw, -, hmin, -⟩ := State.config?_eq_some.mp hc
  have hlen : initImageLen rw be = w.imageLen be.toNat := State.initImageLen_eq hc
  refine ⟨⟨w, be.toNat⟩, ⟨hf, rfl, hc⟩, Width.ofField_eq_some hw, rfl,
    (State.registers_zero_iff_bytes_zero hmin).mpr fun a ha => ?_⟩
  rw [State.loadByte_respond, State.loadByte_initialise, hlen, if_pos]
  split at ha
  · exact ha.trans_le (Nat.sub_le _ _)
  · exact ha

/-- Settles O22: ADD is an update of the bucket's register, and the update writes that register's
bits alone. -/
theorem addFrame : Obligations.AddFrame := by
  intro s t c h hready hx
  cases (exec_add_eq_addItem hready h).symm.trans hx
  refine ⟨fun n hn => s.storeBit_updateReg_other c.width _ hn, fun a ha => ?_, State.addItem_eta h⟩
  rw [State.addItem, State.loadByte_respond]
  rcases s.updateReg_cases c.width (bucket c h) (rank c.width h) with heq | ⟨v, -, heq⟩ <;> rw [heq]
  exact s.loadByte_setReg_other _ _ _ _ ha

/-- Settles O23: in ACTIVE the second update writes nothing, and in the other states the answer is
the one the first ADD left. -/
theorem addIdempotent : Obligations.AddIdempotent := by
  intro h s t hx
  rcases unlessFaulted_cases hx with ⟨hf, rfl⟩ | ⟨hf, hx⟩
  · exact exec_of_faulted (s := s.respondFaulted) hf _
  · rcases lifecycleGate_cases hx with ⟨hl, hx⟩ | ⟨hl, hx⟩ | ⟨-, rfl⟩
    · cases hx
      exact gate_of_uninit (s := s.respond .ok 0 0) hf hl
    · obtain ⟨c, hc, hx⟩ := withConfig_cases hx
      cases hx
      have hready : Ready s c := ⟨hf, hl, hc⟩
      exact (exec_add_eq_addItem (ready_addItem hready h) h).trans
        (congrArg _ (State.addItem_addItem h))
    · exact exec_of_faulted (s := s.raiseFault .useAfterFree) rfl _

/-- Settles O24: the maximum does not depend on the order, and the registers are all the bits there
are. -/
theorem addsLeaveTheMaximum : Obligations.AddsLeaveTheMaximum := by
  intro s c hs hready
  obtain ⟨t, hrun, ht, hreg⟩ := addAll_of_ready hready hs
  refine ⟨t, hrun, ht, hreg, fun hs' hperm => ?_⟩
  obtain ⟨t', hrun', -, hreg'⟩ := addAll_of_ready hready hs'
  refine ⟨t', hrun', State.storeBit_eq_of_getReg_eq (w := c.width) fun i => ?_⟩
  refine BitVec.eq_of_toNat_eq ?_
  rw [hreg, hreg', (bucketRanks_perm hperm i).foldr_eq]

/-- Settles O53: a register has r bits, and of a command's next states only INIT's success and ADD's
update write STORE. -/
theorem registersBoundedAndMonotone : Obligations.RegistersBoundedAndMonotone := by
  refine ⟨fun s w i => s.getReg_le_cap w i, fun i s t c hc hx hnot j => ?_⟩
  rcases exec_cases hx with ⟨-, rfl⟩ | ⟨-, _, _, _, -, rfl⟩ | ⟨-, _, -, rfl⟩ |
    ⟨-, _, _, _, _, rfl, -, rfl⟩ | ⟨h, c', -, ⟨-, -, hc'⟩, rfl⟩ | ⟨-, -, -, rfl⟩
  case inr.inr.inr.inl => exact absurd rfl (hnot.resolve_left fun hne => hne rfl)
  case inr.inr.inr.inr.inl =>
    obtain rfl : c = c' := Option.some.inj (hc.symm.trans hc')
    exact State.getReg_le_addItem h j
  all_goals exact le_rfl

end Sys2Proof.Proofs
end

section
/-! The bits of the hash bytes' fields, and the rank read off them (00_scope.md R9;
41_rank_extractor.md R140 to R146). -/

namespace Sys2Proof.Machine

/-- Bit p of a little-endian integer is bit p mod 8 of byte p / 8 (00_scope.md R9). -/
theorem leNat_testBit (bs : List Byte) (p : Nat) :
    (leNat bs).testBit p = (bs.getD (p / 8) 0).getLsbD (p % 8) := by
  induction bs generalizing p with
  | nil => simp [leNat]
  | cons b bs ih =>
    rw [leNat, Nat.add_comm, Nat.testBit_two_pow_mul_add _ b.isLt]
    split
    · rename_i hp
      rw [Nat.div_eq_of_lt hp, Nat.mod_eq_of_lt hp]
      rfl
    · rename_i hp
      obtain ⟨q, rfl⟩ := Nat.exists_eq_add_of_le (Nat.le_of_not_lt hp)
      rw [ih, Nat.add_sub_cancel_left, Nat.add_mod_left, show (8 + q) / 8 = q / 8 + 1 by omega]
      rfl

/-- The bits of a field of the hash bytes are the bits of its bytes (00_scope.md R9). -/
theorem hashLE_testBit (h : HashIn) (off n p : Nat) :
    (hashLE h off n).testBit p =
      (decide (p < 8 * n) && (h.toList.getD (off + p / 8) 0).getLsbD (p % 8)) := by
  rw [hashLE, leNat_testBit, List.getD_eq_getElem?_getD, List.getElem?_take, List.getElem?_drop]
  by_cases hp : p < 8 * n
  · rw [if_pos (by omega), decide_eq_true hp, Bool.true_and, List.getD_eq_getElem?_getD]
  · rw [if_neg (by omega), decide_eq_false hp, Bool.false_and]
    exact BitVec.getLsbD_zero

/-- The rank is one more than the place of the lowest 1 bit of the guarded field
(41_rank_extractor.md R143). -/
theorem rank_eq_of_lowest {w : Width} {h : HashIn} {p : Nat} (hp : p < w.rankBits)
    (hone : (guarded w h).testBit p = true) (hlow : ∀ j, j < p → (guarded w h).testBit j = false) :
    rank w h = p + 1 := by
  rw [rank, ctz_spec hp hone hlow, Nat.add_comm]

/-- Below the guard the guarded field is the field (41_rank_extractor.md R143). -/
theorem guarded_testBit_of_lt {w : Width} {h : HashIn} {p : Nat} (hp : p < w.rankBits - 1) :
    (guarded w h).testBit p = (rankField w h).testBit p := by
  rw [guarded_testBit, decide_eq_false (Nat.ne_of_lt hp), Bool.false_or]

theorem guarded_testBit_top (w : Width) (h : HashIn) :
    (guarded w h).testBit (w.rankBits - 1) = true := by
  rw [guarded_testBit, decide_eq_true rfl, Bool.true_or]

/-- Buffers whose rank fields agree below the guard have one rank (41_rank_extractor.md R145). -/
theorem rank_eq_of_testBit_eq {w : Width} {h h' : HashIn}
    (heq : ∀ p, p < w.rankBits - 1 → (rankField w h).testBit p = (rankField w h').testBit p) :
    rank w h = rank w h' := by
  have hguarded (p : Nat) (hp : p < w.rankBits) :
      (guarded w h).testBit p = (guarded w h').testBit p := by
    rcases Nat.lt_or_ge p (w.rankBits - 1) with hlt | hge
    · rw [guarded_testBit_of_lt hlt, guarded_testBit_of_lt hlt, heq p hlt]
    · obtain rfl : p = w.rankBits - 1 := by omega
      rw [guarded_testBit_top, guarded_testBit_top]
  obtain ⟨p, hp, hrank, hone, hlow⟩ := rank_spec w h'
  rw [hrank]
  exact rank_eq_of_lowest hp ((hguarded p hp).trans hone)
    fun j hj => (hguarded j (hj.trans hp)).trans (hlow j hj)

/-- A number that is not 0 and has n bits has a lowest 1 bit there. -/
theorem exists_lowest_bit_of_ne_zero {x n : Nat} (h0 : x ≠ 0) (hlt : x < 2 ^ n) :
    ∃ p, p < n ∧ x.testBit p = true ∧ ∀ j, j < p → x.testBit j = false := by
  obtain ⟨q, hq⟩ := Nat.exists_testBit_of_ne_zero h0
  obtain ⟨p, hpq, hone, hlow⟩ := exists_lowest_bit hq
  refine ⟨p, hpq.trans_lt ?_, hone, hlow⟩
  exact (Nat.pow_lt_pow_iff_right (by decide)).mp ((Nat.ge_two_pow_of_testBit hq).trans_lt hlt)

end Sys2Proof.Machine
end

section
/-! The width-8 word scan, word by word (41_rank_extractor.md R144). -/

namespace Sys2Proof.Machine

variable {h : HashIn}

/-- Word j of the guarded rank field: the guard is the top bit of word 3 (41_rank_extractor.md
R144). -/
def guardedWord (h : HashIn) (j : Nat) : Nat :=
  if j = 3 then rankWord h 3 ||| 2 ^ 63 else rankWord h j

theorem guardedWord_of_lt {j : Nat} (hj : j < 3) : guardedWord h j = rankWord h j :=
  if_neg (Nat.ne_of_lt hj)

theorem guardedWord_lt (h : HashIn) (j : Nat) : guardedWord h j < 2 ^ 64 := by
  have hword (k : Nat) : rankWord h k < 2 ^ 64 := hashLE_lt h _ 8
  unfold guardedWord
  split
  · exact Nat.or_lt_two_pow (hword 3) (by decide)
  · exact hword j

/-- Bit p of the guarded 256-bit field is bit p mod 64 of word p / 64 (41_rank_extractor.md R144).
-/
theorem guarded_testBit_word {j p : Nat} (hj : j < 4) (hp : p < 64) :
    (guarded .w8 h).testBit (64 * j + p) = (guardedWord h j).testBit p := by
  have hfield : (rankField .w8 h).testBit (64 * j + p) = (rankWord h j).testBit p := by
    rw [rankField, rankWord, hashLE_testBit, hashLE_testBit,
      decide_eq_true
        (show 64 * j + p < 8 * Width.w8.rankBytes by simp only [Width.rankBytes]; omega),
      decide_eq_true (show p < 8 * 8 from hp),
      show Config.idxBytes + (64 * j + p) / 8 = Config.idxBytes + 8 * j + p / 8 by omega,
      show (64 * j + p) % 8 = p % 8 by omega]
  rw [guarded_testBit, hfield, show Width.w8.rankBits - 1 = 64 * 3 + 63 from rfl, guardedWord]
  split
  · subst j
    rw [Nat.testBit_or, Nat.testBit_two_pow, Bool.or_comm]
    exact congrArg _ (decide_eq_decide.mpr (by omega))
  · rw [decide_eq_false (by omega), Bool.false_or]

/-- The first guarded word that is not 0 gives the rank (41_rank_extractor.md R144). -/
theorem rank_eq_of_first_word {j : Nat} (hj : j < 4) (hzero : ∀ i, i < j → rankWord h i = 0)
    (hne : guardedWord h j ≠ 0) : rank .w8 h = 1 + 64 * j + ctz 64 (guardedWord h j) := by
  obtain ⟨p, hp, hone, hlow⟩ := exists_lowest_bit_of_ne_zero hne (guardedWord_lt h j)
  have hrank : rank .w8 h = 64 * j + p + 1 := by
    refine rank_eq_of_lowest (w := .w8) ?_ ((guarded_testBit_word hj hp).trans hone) fun k hk => ?_
    · rw [show Width.w8.rankBits = 256 from rfl]
      omega
    · rw [← Nat.div_add_mod k 64, guarded_testBit_word (by omega) (Nat.mod_lt _ (by decide))]
      rcases Nat.lt_or_ge (k / 64) j with hlt | hge
      · rw [guardedWord_of_lt (by omega), hzero _ hlt, Nat.zero_testBit]
      · obtain rfl : j = k / 64 := by omega
        exact hlow _ (by omega)
  rw [hrank, ctz_spec hp hone hlow]
  omega

end Sys2Proof.Machine
end

section
/-! The obligations of the rank. -/

namespace Sys2Proof.Proofs

open Sys2Proof.Machine

/-- Settles O45: below the guard the guarded field is the field, so its lowest 1 bit is the field's,
or the guard. -/
theorem rankIsLowestSetBit : Obligations.RankIsLowestSetBit := by
  intro w h
  have hpos := w.rankBits_pos
  refine ⟨fun p hp hone hlow => ?_, fun hzero => ?_, w.cap_eq⟩
  · have hp : p < w.rankBits - 1 := hp
    have hrank : rank w h = p + 1 := rank_eq_of_lowest (by omega)
      ((guarded_testBit_of_lt hp).trans hone)
      fun j hj => (guarded_testBit_of_lt (hj.trans hp)).trans (hlow j hj)
    rw [hrank]
    exact ⟨rfl, min_eq_left (by rw [w.cap_eq]; omega)⟩
  · have hrank : rank w h = w.rankBits - 1 + 1 := rank_eq_of_lowest (by omega)
      (guarded_testBit_top w h) fun j hj => (guarded_testBit_of_lt hj).trans (hzero j hj)
    rw [Nat.sub_add_cancel hpos] at hrank
    exact ⟨hrank, min_eq_right (by rw [hrank, w.cap_eq]; omega)⟩

/-- Settles O46: the scan stops at the first word of the guarded field that is not 0. -/
theorem wordScanIsTheRank : Obligations.WordScanIsTheRank := by
  intro h
  have hword {j : Nat} (hj : j < 3) (hne : rankWord h j ≠ 0)
      (hzero : ∀ i, i < j → rankWord h i = 0) :
      1 + 64 * j + ctz 64 (rankWord h j) = rank .w8 h := by
    rw [← guardedWord_of_lt hj] at hne ⊢
    exact (rank_eq_of_first_word (by omega) hzero hne).symm
  unfold wordScanRank
  by_cases h0 : rankWord h 0 = 0
  · by_cases h1 : rankWord h 1 = 0
    · by_cases h2 : rankWord h 2 = 0
      · rw [if_neg (not_not.mpr h0), if_neg (not_not.mpr h1), if_neg (not_not.mpr h2)]
        refine (rank_eq_of_first_word (j := 3) (by decide) (fun i hi => ?_) ?_).symm
        · interval_cases i <;> assumption
        · simp [guardedWord]
      · rw [if_neg (not_not.mpr h0), if_neg (not_not.mpr h1), if_pos h2]
        exact hword (by decide) h2 fun i hi => by interval_cases i <;> assumption
    · rw [if_neg (not_not.mpr h0), if_pos h1]
      exact hword (by decide) h1 fun i hi => by interval_cases i; assumption
  · rw [if_pos h0]
    exact hword (by decide) h0 fun i hi => absurd hi (Nat.not_lt_zero i)

/-- Settles O47: the guard takes the place of the one bit in which the fields may differ. -/
theorem guardHidesTheTopBit : Obligations.GuardHidesTheTopBit := by
  intro w h h' hbytes hlast
  refine rank_eq_of_testBit_eq fun p hp => ?_
  rw [Width.rankBits] at hp
  rw [rankField, rankField, hashLE_testBit, hashLE_testBit]
  refine congrArg _ ?_
  rcases Nat.lt_or_ge (p / 8) (w.rankBytes - 1) with hlt | hge
  · exact congrArg (·.getLsbD (p % 8)) (hbytes _ hlt)
  · have hbit := congrArg (·.getLsbD (p % 8)) hlast
    simp only [BitVec.getLsbD_extractLsb', Nat.zero_add,
      decide_eq_true (show p % 8 < 7 by omega), Bool.true_and] at hbit
    rwa [show Config.idxBytes + p / 8 = 7 + w.rankBytes by simp only [Config.idxBytes]; omega]

end Sys2Proof.Proofs
end

section
/-! Rounding to binary64 is to the nearest number, ties to the even significand, and monotone
(00_scope.md R11). -/

namespace Sys2Proof.Machine

/-- Every encoding is made of a binade and a significand in its range (42_estimator.md R180). -/
theorem exists_binade_significand (g : Nat) :
    ∃ t k, g = t * 2 ^ 52 + k ∧ (0 < t → 2 ^ 52 ≤ k) ∧ k < 2 ^ 53 := by
  rcases Nat.lt_or_ge g (2 ^ 52) with hlt | hge
  · exact ⟨0, g, by omega, fun h => absurd h (Nat.lt_irrefl 0), by omega⟩
  · exact ⟨g / 2 ^ 52 - 1, 2 ^ 52 + g % 2 ^ 52, by omega, fun _ => by omega, by omega⟩

/-- A larger encoding is a larger number (42_estimator.md R180). -/
theorem binary64Scaled_strictMono : StrictMono binary64Scaled := by
  refine strictMono_nat_of_lt_succ fun g => ?_
  obtain ⟨t, k, rfl, hlo, hhi⟩ := exists_binade_significand g
  rw [Nat.add_assoc, binary64Scaled_make t k hlo hhi.le,
    binary64Scaled_make t (k + 1) (fun h => (hlo h).trans (Nat.le_succ k)) hhi]
  exact Nat.mul_lt_mul_of_pos_right (Nat.lt_succ_self k) (Nat.two_pow_pos t)

/-- Away from one half the rounded integer is nearer than one half. -/
theorem roundHalfEven_near_of_ne (num den : Nat) (hd : 0 < den) (h : 2 * (num % den) ≠ den) :
    2 * num < 2 * (den * roundHalfEven num den) + den ∧
      2 * (den * roundHalfEven num den) < 2 * num + den := by
  have hdiv := Nat.div_add_mod num den
  have hlt := Nat.mod_lt num hd
  unfold roundHalfEven
  dsimp only
  split
  · omega
  · rw [if_pos (by omega), Nat.mul_add, Nat.mul_one]
    omega

/-- No integer is nearer to num/den than the rounded one, and one as near leaves the rounded one
even (00_scope.md R11). -/
theorem roundHalfEven_nearest (num den : Nat) (hd : 0 < den) {j : Nat}
    (hj : j ≠ roundHalfEven num den) :
    |(num : ℤ) - (den * roundHalfEven num den : ℕ)| ≤ |(num : ℤ) - (den * j : ℕ)| ∧
      (|(num : ℤ) - (den * roundHalfEven num den : ℕ)| = |(num : ℤ) - (den * j : ℕ)| →
        roundHalfEven num den % 2 = 0) := by
  have hnear := roundHalfEven_near num den hd
  have hstrict := roundHalfEven_near_of_ne num den hd
  have heven := roundHalfEven_tie num den
  have hfar : den * roundHalfEven num den + den ≤ den * j ∨
      den * j + den ≤ den * roundHalfEven num den := by
    rw [← Nat.mul_succ, ← Nat.mul_succ]
    rcases Nat.lt_or_gt_of_ne hj with hlt | hgt
    · exact .inr (Nat.mul_le_mul_left den hlt)
    · exact .inl (Nat.mul_le_mul_left den hgt)
  generalize den * roundHalfEven num den = near at *
  generalize den * j = far at *
  have hn := abs_cases ((num : ℤ) - near)
  have hf := abs_cases ((num : ℤ) - far)
  refine ⟨by omega, fun heq => heven ?_⟩
  by_contra hne
  have hstrict := hstrict hne
  omega

/-- The distance of an exact rational from an encoding's value, in units of 2^-1074 / den. -/
def Frac.err (x : Frac) (g : Nat) : ℤ :=
  |(x.num * 2 ^ (minExp + 52) : ℤ) - x.den * (binary64Scaled g : ℤ)|

variable {x y : Frac}

/-- The distance from an encoding whose value is j units of the last place of the rational's binade.
-/
theorem Frac.err_eq {g j t : Nat} (hg : binary64Scaled g = j * 2 ^ t) :
    x.err g = |((x.num * 2 ^ (minExp + 52) : ℕ) : ℤ) - (x.den * 2 ^ t * j : ℕ)| := by
  rw [Frac.err, hg]
  push_cast
  ring_nf

/-- A number of a lower binade is nowhere nearer than the rational's own binade begins. -/
theorem Frac.err_lt_of_lower_binade (hd : 0 < x.den) {t j : Nat} (ht : t < binade x)
    (hj : j < 2 ^ 53) {g : Nat} (hg : binary64Scaled g = j * 2 ^ t) :
    |((x.num * 2 ^ (minExp + 52) : ℕ) : ℤ) - (x.den * 2 ^ binade x * 2 ^ 52 : ℕ)| < x.err g := by
  have hbinade := (binade_bounds x hd).1 (Nat.zero_lt_of_lt ht)
  have hstart : x.den * 2 ^ binade x * 2 ^ 52 ≤ x.num * 2 ^ (minExp + 52) := by
    rw [Nat.pow_add, ← Nat.mul_assoc, Nat.mul_comm x.den]
    exact Nat.mul_le_mul_right _ hbinade
  have hbelow : x.den * 2 ^ t * j < x.den * 2 ^ binade x * 2 ^ 52 := by
    have hpow : 2 ^ t * 2 ^ 53 ≤ 2 ^ binade x * 2 ^ 52 := by
      rw [← Nat.pow_add, ← Nat.pow_add]
      exact Nat.pow_le_pow_right (by decide) (by omega)
    rw [Nat.mul_assoc, Nat.mul_assoc]
    exact Nat.mul_lt_mul_of_pos_left
      ((Nat.mul_lt_mul_of_pos_left hj (Nat.two_pow_pos t)).trans_le hpow) hd
  rw [Frac.err_eq hg, abs_of_nonneg (by omega), abs_of_nonneg (by omega)]
  omega

/-- The significand is a nearest multiple of the last place of the rational's binade (00_scope.md
R11). -/
theorem significand_nearest (hd : 0 < x.den) (j : Nat) :
    |((x.num * 2 ^ (minExp + 52) : ℕ) : ℤ) - (x.den * 2 ^ binade x * significand x : ℕ)| ≤
      |((x.num * 2 ^ (minExp + 52) : ℕ) : ℤ) - (x.den * 2 ^ binade x * j : ℕ)| := by
  by_cases hj : j = significand x
  · rw [hj]
  · exact (roundHalfEven_nearest _ _ (Nat.mul_pos hd (Nat.two_pow_pos _)) hj).1

theorem significand_even_of_tie (hd : 0 < x.den) {j : Nat} (hj : j ≠ significand x)
    (htie : |((x.num * 2 ^ (minExp + 52) : ℕ) : ℤ) - (x.den * 2 ^ binade x * significand x : ℕ)| =
      |((x.num * 2 ^ (minExp + 52) : ℕ) : ℤ) - (x.den * 2 ^ binade x * j : ℕ)|) :
    significand x % 2 = 0 :=
  (roundHalfEven_nearest _ _ (Nat.mul_pos hd (Nat.two_pow_pos _)) hj).2 htie

/-- RNE64 gives a nearest number, and of two nearest the one with even significand (00_scope.md
R11). -/
theorem roundBits_nearest (hd : 0 < x.den) (hx : x.num < 2 ^ (minExp + 1) * x.den) (g : Nat) :
    x.err (roundBits x) ≤ x.err g ∧
      (x.err (roundBits x) = x.err g → g ≠ roundBits x → roundBits x % 2 = 0) := by
  obtain ⟨hbits, -⟩ := roundBits_eq x hd hx
  obtain ⟨hlo, hhi⟩ := significand_bounds x hd
  have hvalue := binary64Scaled_make (binade x) (significand x) hlo hhi
  rw [← hbits] at hvalue
  have hparity : roundBits x % 2 = significand x % 2 := by omega
  rw [Frac.err_eq hvalue, hparity]
  obtain ⟨t, j, hgj, hjlo, hjhi⟩ := exists_binade_significand g
  have hgvalue := hgj ▸ binary64Scaled_make t j hjlo hjhi.le
  rcases Nat.lt_or_ge t (binade x) with hlt | hge
  · have hfarther := (significand_nearest hd (2 ^ 52)).trans_lt
      (Frac.err_lt_of_lower_binade hd hlt hjhi hgvalue)
    exact ⟨hfarther.le, fun heq => absurd heq hfarther.ne⟩
  · have hmultiple : binary64Scaled g = j * 2 ^ (t - binade x) * 2 ^ binade x := by
      rw [hgvalue, Nat.mul_assoc, ← Nat.pow_add, Nat.sub_add_cancel hge]
    rw [Frac.err_eq hmultiple]
    refine ⟨significand_nearest hd _, fun htie hg => significand_even_of_tie hd ?_ htie⟩
    intro heq
    refine hg (binary64Scaled_strictMono.injective ?_)
    rw [hmultiple, heq, hvalue]

end Sys2Proof.Machine
end

section
/-! Rounding in terms of real numbers (00_scope.md R11; 42_estimator.md R180). -/

namespace Sys2Proof.Machine

variable {x y : Frac}

/-- The real number of a finite non-negative encoding (42_estimator.md R180). -/
noncomputable def binary64Real (g : Nat) : ℝ := (binary64Scaled g : ℝ) / 2 ^ (minExp + 52)

theorem binary64Real_strictMono : StrictMono binary64Real := fun _ _ h =>
  div_lt_div_of_pos_right (Nat.cast_lt.mpr (binary64Scaled_strictMono h)) (by positivity)

/-- The distance in units of 2^-1074 / den is the real distance, scaled. -/
theorem Frac.err_eq_real (hd : 0 < x.den) (g : Nat) :
    (x.err g : ℝ) = x.den * 2 ^ (minExp + 52) * |x.real - binary64Real g| := by
  have hd' : (0 : ℝ) < x.den := Nat.cast_pos.mpr hd
  have hscale : (0 : ℝ) < x.den * 2 ^ (minExp + 52) := by positivity
  rw [← abs_of_pos hscale, ← abs_mul, Frac.err, Frac.real, binary64Real]
  push_cast
  congr 1
  field_simp

/-- The rationals that round within the finite numbers, as reals (00_scope.md R11). -/
theorem Frac.real_lt_iff (hd : 0 < x.den) :
    x.real < 2 ^ (minExp + 1) ↔ x.num < 2 ^ (minExp + 1) * x.den := by
  rw [Frac.real, div_lt_iff₀ (Nat.cast_pos.mpr hd)]
  exact_mod_cast Iff.rfl

section
variable (hd : 0 < x.den) (hx : x.real < 2 ^ (minExp + 1))
include hd hx

theorem roundBits_finite : roundBits x < 2047 * 2 ^ 52 :=
  (roundBits_eq x hd ((Frac.real_lt_iff hd).mp hx)).2

theorem rne64_toNat : (rne64 x).toNat = roundBits x := by
  have hfinite := roundBits_finite hd hx
  rw [rne64, BitVec.toNat_ofNat, Nat.mod_eq_of_lt (hfinite.trans (by decide))]

theorem roundBits_nearest_real (g : Nat) :
    |x.real - binary64Real (roundBits x)| ≤ |x.real - binary64Real g| := by
  have hd' : (0 : ℝ) < x.den := Nat.cast_pos.mpr hd
  have hscale : (0 : ℝ) < x.den * 2 ^ (minExp + 52) := by positivity
  have herr := (roundBits_nearest hd ((Frac.real_lt_iff hd).mp hx) g).1
  rw [← Int.cast_le (R := ℝ), Frac.err_eq_real hd, Frac.err_eq_real hd] at herr
  exact le_of_mul_le_mul_left herr hscale

end

/-- A point is as near to a as to a larger b where it lies below their middle. -/
theorem abs_sub_le_iff_le_middle {r a b : ℝ} (hab : a < b) : |r - a| ≤ |r - b| ↔ 2 * r ≤ a + b := by
  have hfactor : (r - b) ^ 2 - (r - a) ^ 2 = (b - a) * (a + b - 2 * r) := by ring
  rw [← sq_le_sq, ← sub_nonneg, hfactor, mul_nonneg_iff_of_pos_left (sub_pos.mpr hab), sub_nonneg]

/-- A point is as near to a as to a smaller b where it lies above their middle. -/
theorem abs_sub_le_iff_middle_le {r a b : ℝ} (hba : b < a) : |r - a| ≤ |r - b| ↔ a + b ≤ 2 * r := by
  have hfactor : (r - b) ^ 2 - (r - a) ^ 2 = (a - b) * (2 * r - (a + b)) := by ring
  rw [← sq_le_sq, ← sub_nonneg, hfactor, mul_nonneg_iff_of_pos_left (sub_pos.mpr hba), sub_nonneg]

/-- A larger rational does not round to a smaller number (00_scope.md R11). -/
theorem roundBits_mono (hdx : 0 < x.den) (hdy : 0 < y.den) (hxy : x.real ≤ y.real)
    (hy : y.real < 2 ^ (minExp + 1)) : roundBits x ≤ roundBits y := by
  by_contra! hlt
  have hval := binary64Real_strictMono hlt
  have hx := hxy.trans_lt hy
  have hright := (abs_sub_le_iff_middle_le hval).mp (roundBits_nearest_real hdx hx (roundBits y))
  have hleft := (abs_sub_le_iff_le_middle hval).mp (roundBits_nearest_real hdy hy (roundBits x))
  have heq : x.real = y.real := by linarith
  rw [Frac.real, Frac.real, div_eq_div_iff (by positivity) (by positivity)] at heq
  have hbits := roundBits_congr hdx hdy (by exact_mod_cast heq)
  omega

/-- A rational no smaller than a number does not round below it (00_scope.md R11). -/
theorem le_roundBits (hd : 0 < x.den) (hx : x.real < 2 ^ (minExp + 1)) {g : Nat}
    (hg : binary64Real g ≤ x.real) : g ≤ roundBits x := by
  by_contra! hlt
  have hval := binary64Real_strictMono hlt
  have hleft := (abs_sub_le_iff_le_middle hval).mp (roundBits_nearest_real hd hx g)
  linarith

/-- A real between two rationals that round to one number is nearest to that number too (00_scope.md
R11). -/
theorem nearest_of_between (hdx : 0 < x.den) (hdy : 0 < y.den) (hy : y.real < 2 ^ (minExp + 1))
    (heq : roundBits x = roundBits y) {r : ℝ} (hxr : x.real ≤ r) (hry : r ≤ y.real) (g : Nat) :
    |r - binary64Real (roundBits x)| ≤ |r - binary64Real g| := by
  rcases lt_trichotomy g (roundBits x) with hlt | rfl | hgt
  · have hval := binary64Real_strictMono hlt
    have hx := (hxr.trans hry).trans_lt hy
    have hright := (abs_sub_le_iff_middle_le hval).mp (roundBits_nearest_real hdx hx g)
    exact (abs_sub_le_iff_middle_le hval).mpr (by linarith)
  · exact le_rfl
  · have hval := binary64Real_strictMono hgt
    have hnear := roundBits_nearest_real hdy hy g
    rw [← heq] at hnear
    have hleft := (abs_sub_le_iff_le_middle hval).mp hnear
    exact (abs_sub_le_iff_le_middle hval).mpr (by linarith)

end Sys2Proof.Machine
end

section
/-! How close LINCOUNT's bounds lie to m * ln(m/Z), and the size of that real (42_estimator.md
R175). -/

namespace Sys2Proof.Machine

/-- What a series of n terms leaves open of the half logarithm, where the ratio is at most 1/3. -/
theorem atanh_gap {p q n : Nat} (hq : 0 < q) (hpq : 3 * p ≤ q) (hn : 24 ≤ n) :
    (atanhUpper p q n).real ≤ (atanhLower p q n).real + 9 / 8 * (1 / 3) ^ 49 := by
  have hq' : (0 : ℝ) < q := Nat.cast_pos.mpr hq
  have hratio : (p : ℝ) / q ≤ 1 / 3 := by
    rw [div_le_div_iff₀ hq' (by norm_num), one_mul, mul_comm]
    exact_mod_cast hpq
  have h0 : (0 : ℝ) ≤ (p : ℝ) / q := by positivity
  have hsq : ((p : ℝ) / q) ^ 2 ≤ 1 / 9 :=
    (pow_le_pow_left₀ h0 hratio 2).trans_eq (by norm_num)
  have hpow : ((p : ℝ) / q) ^ (2 * n + 1) ≤ (1 / 3) ^ 49 :=
    (pow_le_pow_left₀ h0 hratio _).trans
      (pow_le_pow_of_le_one (by norm_num) (by norm_num) (by omega))
  rw [atanhUpper_real (by omega), atanhLower_real hq, add_le_add_iff_left,
    div_le_iff₀ (by linarith)]
  calc ((p : ℝ) / q) ^ (2 * n + 1) ≤ (1 / 3) ^ 49 := hpow
    _ = 9 / 8 * (1 / 3) ^ 49 * (1 - 1 / 9) := by ring
    _ ≤ 9 / 8 * (1 / 3) ^ 49 * (1 - ((p : ℝ) / q) ^ 2) := by gcongr

section
variable {m z n : Nat} (hz : 1 ≤ z) (hzm : z ≤ m)
include hz

theorem lt_lnShift_succ : m < 2 ^ (lnShift m z + 1) * z :=
  (Nat.div_lt_iff_lt_mul hz).mp Nat.lt_log2_self

include hzm

theorem lnShift_le_63 (hm : m ≤ 2 ^ 63) : lnShift m z ≤ 63 := by
  have hle : 2 ^ lnShift m z ≤ 2 ^ 63 :=
    (Nat.le_mul_of_pos_right _ hz).trans ((lnShift_le hz hzm).trans hm)
  exact (Nat.pow_le_pow_iff_right (by decide)).mp hle

/-- 24 terms or more enclose m * ln(m/Z) within one quarter (42_estimator.md R175; log entry 3). -/
theorem lincount_gap (hm : m ≤ 2 ^ 63) (hn : 24 ≤ n) :
    (lincountUpper m z n).real ≤ (lincountLower m z n).real + 1 / 4 := by
  have hshift := lnShift_le_63 hz hzm hm
  have hlow := lnShift_le hz hzm
  have hhigh : m < 2 * (2 ^ lnShift m z * z) := by
    rw [← Nat.mul_assoc, ← Nat.pow_succ']
    exact lt_lnShift_succ hz
  have hzk : 0 < 2 ^ lnShift m z * z := Nat.mul_pos (Nat.two_pow_pos _) hz
  have hhalf := atanh_gap (p := 1) (q := 3) (by decide) (by decide) hn
  have hrest := atanh_gap (p := m - 2 ^ lnShift m z * z) (q := m + 2 ^ lnShift m z * z)
    (by omega) (by omega) hn
  rw [lincountLower, lincountUpper,
    lnCombine_real (atanhLower_den_pos (by decide) n) (atanhLower_den_pos (by omega) n),
    lnCombine_real (atanhUpper_den_pos (by decide) n) (atanhUpper_den_pos (by omega) n)]
  have hm' : (m : ℝ) ≤ 2 ^ 63 := by exact_mod_cast hm
  have hshift' : (lnShift m z : ℝ) ≤ 63 := by exact_mod_cast hshift
  calc 2 * m * (lnShift m z * (atanhUpper 1 3 n).real +
        (atanhUpper (m - 2 ^ lnShift m z * z) (m + 2 ^ lnShift m z * z) n).real)
      ≤ 2 * m * (lnShift m z * ((atanhLower 1 3 n).real + 9 / 8 * (1 / 3) ^ 49) +
        ((atanhLower (m - 2 ^ lnShift m z * z) (m + 2 ^ lnShift m z * z) n).real +
          9 / 8 * (1 / 3) ^ 49)) := by gcongr
    _ = 2 * m * (lnShift m z * (atanhLower 1 3 n).real +
        (atanhLower (m - 2 ^ lnShift m z * z) (m + 2 ^ lnShift m z * z) n).real) +
          2 * m * ((lnShift m z + 1) * (9 / 8 * (1 / 3) ^ 49)) := by ring
    _ ≤ _ + 2 * 2 ^ 63 * ((63 + 1) * (9 / 8 * (1 / 3) ^ 49)) := by gcongr
    _ ≤ _ + 1 / 4 := by gcongr; norm_num

end

/-- m * ln(m/Z), the real LINCOUNT rounds (42_estimator.md R175). -/
noncomputable def lincountReal (m z : Nat) : ℝ := m * Real.log ((m : ℝ) / z)

section
variable {m z : Nat} (hz : 1 ≤ z)
include hz

theorem lincountReal_le_sq (hm : 0 < m) : lincountReal m z ≤ (m : ℝ) ^ 2 := by
  have hm' : (0 : ℝ) < m := Nat.cast_pos.mpr hm
  have hz' : (1 : ℝ) ≤ z := Nat.one_le_cast.mpr hz
  have hlog : Real.log ((m : ℝ) / z) ≤ m :=
    ((Real.log_le_sub_one_of_pos (by positivity)).trans (sub_le_self _ zero_le_one)).trans
      (div_le_self hm'.le hz')
  rw [lincountReal, sq]
  exact mul_le_mul_of_nonneg_left hlog hm'.le

/-- One register more that is empty lowers the real by at least 1 (42_estimator.md R175 (b)). -/
theorem lincountReal_succ_add_one_le (hzm : z < m) :
    lincountReal m (z + 1) + 1 ≤ lincountReal m z := by
  have hz' : (0 : ℝ) < z := Nat.cast_pos.mpr hz
  have hm' : (0 : ℝ) < m := Nat.cast_pos.mpr (by omega)
  have hle : (z : ℝ) + 1 ≤ m := by exact_mod_cast hzm
  have hsplit : Real.log ((m : ℝ) / z) =
      Real.log ((m : ℝ) / (z + 1 : ℕ)) + Real.log (((z : ℝ) + 1) / z) := by
    push_cast
    rw [Real.log_div hm'.ne' hz'.ne', Real.log_div hm'.ne' (by positivity),
      Real.log_div (by positivity) hz'.ne']
    ring
  have hlog : 1 / ((z : ℝ) + 1) ≤ Real.log (((z : ℝ) + 1) / z) := by
    refine le_trans (le_of_eq ?_) (Real.one_sub_inv_le_log_of_pos (by positivity))
    field_simp
    ring
  rw [lincountReal, lincountReal, hsplit, mul_add, add_le_add_iff_left]
  calc (1 : ℝ) ≤ m * (1 / ((z : ℝ) + 1)) := by
        rw [mul_one_div, le_div_iff₀ (by positivity), one_mul]
        exact hle
    _ ≤ m * Real.log (((z : ℝ) + 1) / z) := mul_le_mul_of_nonneg_left hlog hm'.le

theorem one_le_lincountReal (hzm : z < m) : 1 ≤ lincountReal m z := by
  have hstep := lincountReal_succ_add_one_le hz hzm
  have hnonneg : 0 ≤ lincountReal m (z + 1) := by
    refine mul_nonneg (Nat.cast_nonneg m) (Real.log_nonneg ?_)
    rw [le_div_iff₀ (by positivity), one_mul]
    exact_mod_cast hzm
  linarith

end

/-- What is rounded to LINCOUNT(m, Z): a rational within one quarter of m * ln(m/Z) (42_estimator.md
R175; log entry 3). -/
theorem lincount_eq_rne64 {m z : Nat} (hz : 1 ≤ z) (hzm : z < m) (hm : m ≤ 2 ^ 63) :
    ∃ y : Frac, 0 < y.den ∧ lincount m z = rne64 y ∧
      lincountReal m z - 1 / 4 ≤ y.real ∧ y.real ≤ lincountReal m z + 1 / 4 := by
  obtain ⟨k, -, hround, -⟩ := lincountSearch_spec m z 5 24
  have hn : 24 ≤ 24 * 2 ^ k := Nat.le_mul_of_pos_right _ (Nat.two_pow_pos k)
  obtain ⟨hlower, hupper⟩ := lincount_encloses hz hzm.le (24 * 2 ^ k)
  have hgap := lincount_gap hz hzm.le hm hn
  rw [← lincountReal] at hlower hupper
  rw [lincount, if_neg hzm.ne]
  rcases hround with heq | heq
  · exact ⟨_, lincountLower_den_pos hz _, heq, by linarith, by linarith⟩
  · exact ⟨_, lincountUpper_den_pos hz hzm.le _, heq, by linarith, by linarith⟩

/-- A rational within one quarter of m * ln(m/Z) rounds within the finite numbers (42_estimator.md
R179). -/
theorem real_lt_of_le_lincountReal {m z : Nat} (hz : 1 ≤ z) (hm0 : 0 < m) (hm : m ≤ 2 ^ 63) {r : ℝ}
    (hr : r ≤ lincountReal m z + 1 / 4) : r < 2 ^ (minExp + 1) := by
  have hm' : (m : ℝ) ≤ 2 ^ 63 := by exact_mod_cast hm
  have hsq : (m : ℝ) ^ 2 ≤ (2 ^ 63) ^ 2 := pow_le_pow_left₀ (Nat.cast_nonneg m) hm' 2
  have hpow : (2 : ℝ) ^ 127 ≤ 2 ^ (minExp + 1) :=
    pow_le_pow_right₀ one_le_two (by rw [minExp_eq]; decide)
  have hle := lincountReal_le_sq (m := m) hz hm0
  calc r ≤ (2 ^ 63) ^ 2 + 1 / 4 := by linarith
    _ < 2 ^ 127 := by norm_num
    _ ≤ 2 ^ (minExp + 1) := hpow

end Sys2Proof.Machine
end

section
/-! LINCOUNT's encoding (42_estimator.md R175). -/

namespace Sys2Proof.Machine

open Sys2Proof.Safety

/-- A settled search answers the number both bounds of some enclosure round to (42_estimator.md
R175). -/
theorem lincountSearch_of_settles {m z tries n : Nat} (h : lincountSettles m z tries n = true) :
    ∃ k, rne64 (lincountLower m z k) = rne64 (lincountUpper m z k) ∧ n ≤ k ∧
      lincountSearch m z tries n = rne64 (lincountLower m z k) := by
  induction tries generalizing n with
  | zero =>
    have heq : rne64 (lincountLower m z n) = rne64 (lincountUpper m z n) := of_decide_eq_true h
    refine ⟨n, heq, le_rfl, ?_⟩
    rw [lincountSearch, ← heq]
    exact ite_self _
  | succ tries ih =>
    rw [lincountSearch]
    split
    · exact ⟨n, ‹_›, le_rfl, rfl⟩
    · rename_i hne
      rw [lincountSettles, decide_eq_false hne, Bool.false_or] at h
      obtain ⟨k, heq, hk, hsearch⟩ := ih h
      exact ⟨k, heq, by omega, hsearch⟩

theorem lincount_self (m : Nat) : lincount m m = 0 := if_pos rfl

/-- The least normal number is 2^-1022 (42_estimator.md R180). -/
theorem binary64Real_least_normal : binary64Real (2 ^ 52) ≤ 3 / 4 := by
  have hscaled : binary64Scaled (2 ^ 52) = 2 ^ 52 := by decide
  have hpow : (2 : ℝ) ^ 1 ≤ 2 ^ minExp := pow_le_pow_right₀ one_le_two (by rw [minExp_eq]; decide)
  rw [binary64Real, hscaled, div_le_iff₀ (by positivity), pow_add]
  push_cast
  nlinarith

section
variable {m z : Nat} (hz : 1 ≤ z) (hm : m ≤ 2 ^ 63)
include hz hm

/-- LINCOUNT is a positive normal number where some register is not empty (42_estimator.md R175
(c)). -/
theorem lincount_normal (hzm : z < m) :
    2 ^ 52 ≤ (lincount m z).toNat ∧ (lincount m z).toNat < 2047 * 2 ^ 52 := by
  obtain ⟨y, hd, heq, hlower, hupper⟩ := lincount_eq_rne64 hz hzm hm
  have hy := real_lt_of_le_lincountReal hz (Nat.zero_lt_of_lt hzm) hm hupper
  have hone := one_le_lincountReal hz hzm
  have hleast : binary64Real (2 ^ 52) ≤ y.real := binary64Real_least_normal.trans (by linarith)
  rw [heq, rne64_toNat hd hy]
  exact ⟨le_roundBits hd hy hleast, roundBits_finite hd hy⟩

theorem lincount_finite (hzm : z ≤ m) : (lincount m z).toNat < 2047 * 2 ^ 52 := by
  rcases Nat.eq_or_lt_of_le hzm with rfl | hlt
  · rw [lincount_self]
    decide
  · exact (lincount_normal hz hm hlt).2

/-- The real falls by at least 1 and the bounds are off by at most one quarter, so the roundings do
not cross (42_estimator.md R175 (b)). -/
theorem lincount_succ_le (hzm : z < m) : (lincount m (z + 1)).toNat ≤ (lincount m z).toNat := by
  rcases Nat.eq_or_lt_of_le (Nat.succ_le_of_lt hzm) with rfl | hlt
  · rw [lincount_self]
    exact Nat.zero_le _
  · obtain ⟨x, hdx, hx, -, hxupper⟩ := lincount_eq_rne64 (Nat.le_add_left 1 z) hlt hm
    obtain ⟨y, hdy, hy, hylower, hyupper⟩ := lincount_eq_rne64 hz hzm hm
    have hpos := Nat.zero_lt_of_lt hzm
    have hylt := real_lt_of_le_lincountReal hz hpos hm hyupper
    have hxlt := real_lt_of_le_lincountReal (Nat.le_add_left 1 z) hpos hm hxupper
    have hstep := lincountReal_succ_add_one_le hz hzm
    rw [hx, hy, rne64_toNat hdx hxlt, rne64_toNat hdy hylt]
    exact roundBits_mono hdx hdy (by linarith) hylt

theorem lincount_le_lincount_one (hzm : z ≤ m) : (lincount m z).toNat ≤ (lincount m 1).toNat := by
  induction z, hz using Nat.le_induction with
  | base => exact le_rfl
  | succ z hz ih => exact (lincount_succ_le hz hm hzm).trans (ih (Nat.le_of_succ_le hzm))

end

end Sys2Proof.Machine
end

section
/-! The obligations of rounding and of LINCOUNT. -/

namespace Sys2Proof.Proofs

open Sys2Proof.Machine Sys2Proof.Safety

/-- Settles O30: the significand is the nearest integer in units of the last place, and numbers of
lower binades are farther. -/
theorem roundingIsNearestEven : Obligations.RoundingIsNearestEven := fun x hd hx =>
  ⟨(roundBits_eq x hd hx).2, fun g _ => roundBits_nearest hd hx g⟩

/-- Settles O31: the search answers the rounding of a bound of an enclosure. -/
theorem lincountIsEnclosed : Obligations.LincountIsEnclosed := by
  refine ⟨lincount_self, fun m z hz hzm => ?_⟩
  obtain ⟨k, hk, hround, hsettled⟩ := lincountSearch_spec m z 5 24
  obtain ⟨hlower, hupper⟩ := lincount_encloses hz hzm.le (24 * 2 ^ k)
  rw [lincount, if_neg hzm.ne]
  exact ⟨k, _, hk, rfl, hlower, hupper, hround, hsettled⟩

/-- Settles O32: the real lies between two rationals that round to LINCOUNT's number, each of which
that number is nearest to. -/
theorem lincountIsCorrectlyRounded : Obligations.LincountIsCorrectlyRounded := by
  intro m z hz hzm hm hsettles
  refine ⟨lincount_finite hz hm hzm.le, fun g _ => ?_⟩
  obtain ⟨n, heq, hn, hsearch⟩ := lincountSearch_of_settles hsettles
  obtain ⟨hlower, hupper⟩ := lincount_encloses hz hzm.le n
  have hgap := lincount_gap hz hzm.le hm hn
  rw [← lincountReal] at hlower hupper
  have hdl := lincountLower_den_pos (m := m) hz n
  have hdu := lincountUpper_den_pos hz hzm.le n
  have hu := real_lt_of_le_lincountReal hz (Nat.zero_lt_of_lt hzm) hm
    (r := (lincountUpper m z n).real) (by linarith)
  have hl := (hlower.trans hupper).trans_lt hu
  have hbits : roundBits (lincountLower m z n) = roundBits (lincountUpper m z n) := by
    rw [← rne64_toNat hdl hl, ← rne64_toNat hdu hu, heq]
  rw [lincount, if_neg hzm.ne, hsearch, rne64_toNat hdl hl]
  exact nearest_of_between hdl hdu hu hbits hlower hupper g

/-- Settles O33: the real's steps are larger than the enclosure, and rounding is monotone. -/
theorem lincountNonIncreasing : Obligations.LincountNonIncreasing := by
  intro m z hz hzm hm
  obtain ⟨hnormal, hfinite⟩ := lincount_normal hz hm hzm
  exact ⟨lincount_succ_le hz hm hzm, hnormal, lincount_le_lincount_one hz hm hzm.le, hfinite⟩

end Sys2Proof.Proofs
end

section
/-! The estimate's size, its branches and its encoding (42_estimator.md R172 to R181). -/

namespace Sys2Proof.Machine

open Sys2Proof.Safety

variable {s t : State} {c : ActiveConfig}

theorem alpha_num_le_den (b : Nat) : (alpha b).num ≤ (alpha b).den := by
  unfold alpha
  split_ifs
  · decide
  · decide
  · decide
  · dsimp only
    omega

/-- 5 divides no numerator of alpha (42_estimator.md R172, R176). -/
theorem not_five_dvd_alpha_num (b : Nat) : ¬ 5 ∣ (alpha b).num := by
  have h5 : Nat.Prime 5 := by decide
  unfold alpha
  split_ifs
  · decide
  · decide
  · decide
  · intro hdvd
    rcases h5.dvd_mul.mp hdvd with h | h
    · exact absurd h (by decide)
    · exact absurd (h5.dvd_of_dvd_pow h) (by decide)

theorem alphaQ_le_one (b : Nat) : alphaQ b ≤ 1 := by
  rw [← alpha_eq, div_le_one (Nat.cast_pos.mpr (alpha_den_pos b))]
  exact_mod_cast alpha_num_le_den b

/-- E = (5/2) * m would make 5 divide alpha's numerator (42_estimator.md R176). -/
theorem rawQ_ne_small_range_bound (s : State) (c : ActiveConfig) :
    rawQ s c ≠ 5 / 2 * (c.regCount : ℚ) := by
  intro heq
  have hden : ((s.rawEstimate c).den : ℚ) ≠ 0 := Nat.cast_ne_zero.mpr (s.rawEstimate_den_pos c).ne'
  have hcross : 2 * (s.rawEstimate c).num = 5 * (c.regCount * (s.rawEstimate c).den) := by
    rw [← s.rawEstimate_eq c, div_eq_iff hden] at heq
    have hq : (2 : ℚ) * (s.rawEstimate c).num = 5 * (c.regCount * (s.rawEstimate c).den) := by
      rw [heq]
      ring
    exact_mod_cast hq
  have h5 : Nat.Prime 5 := by decide
  have hdvd : 5 ∣ 2 * (s.rawEstimate c).num := hcross ▸ Nat.dvd_mul_right 5 _
  have hnot2 (k : Nat) : ¬ 5 ∣ 2 ^ k := fun h => absurd (h5.dvd_of_dvd_pow h) (by decide)
  rcases h5.dvd_mul.mp hdvd with h | h
  · exact absurd h (by decide)
  · rcases h5.dvd_mul.mp h with h | h
    · rcases h5.dvd_mul.mp h with h | h
      · exact not_five_dvd_alpha_num _ h
      · exact hnot2 _ (h5.dvd_of_dvd_pow h)
    · exact hnot2 _ h

/-- E is at most m * 2^cap, far below the largest binary64 number (42_estimator.md R171, R179). -/
theorem rawEstimate_real_lt (hb : c.exponent < 64) :
    (s.rawEstimate c).real < 2 ^ (minExp + 1) := by
  have hd := s.rawEstimate_den_pos c
  rw [Frac.real_lt_iff hd]
  have hcap : c.width.cap ≤ 255 := by cases c.width <;> decide
  have hpow : 2 ^ c.exponent * 2 ^ c.width.cap < 2 ^ (minExp + 1) := by
    rw [← Nat.pow_add]
    exact Nat.pow_lt_pow_right (by decide) (by rw [minExp_eq]; omega)
  have hsum : 2 ^ c.exponent ≤ scaledSum (s.getReg c.width) c.width.cap c.regCount :=
    le_scaledSum _ _ _
  calc (s.rawEstimate c).num
      = (alpha c.exponent).num * 2 ^ c.exponent * (2 ^ c.exponent * 2 ^ c.width.cap) := by
        simp only [State.rawEstimate, Machine.rawEstimate]
        ring
    _ ≤ (alpha c.exponent).den * scaledSum (s.getReg c.width) c.width.cap c.regCount *
          (2 ^ c.exponent * 2 ^ c.width.cap) :=
        Nat.mul_le_mul_right _ (Nat.mul_le_mul (alpha_num_le_den _) hsum)
    _ = (2 ^ c.exponent * 2 ^ c.width.cap) * (s.rawEstimate c).den := Nat.mul_comm _ _
    _ < 2 ^ (minExp + 1) * (s.rawEstimate c).den := Nat.mul_lt_mul_of_pos_right hpow hd

theorem emptyRegs_le (s : State) (c : ActiveConfig) : s.emptyRegs c ≤ c.regCount := by
  rw [State.emptyRegs, emptyCount_eq]
  exact (Finset.card_filter_le _ _).trans_eq (Finset.card_range _)

/-- In ACTIVE the estimate is a finite non-negative number (42_estimator.md R179). -/
theorem estimateBits_finite (hb : c.exponent < 64) :
    finiteNonneg (estimateBits c.exponent (s.rawEstimate c) (s.emptyRegs c)) = true := by
  rw [finiteNonneg, decide_eq_true_iff]
  unfold estimateBits
  split
  · split
    · exact lincount_finite ‹_› (Nat.pow_le_pow_right (by decide) (by omega)) (emptyRegs_le s c)
    · decide
  · have hd := s.rawEstimate_den_pos c
    have hlt := rawEstimate_real_lt (s := s) hb
    rw [rne64_toNat hd hlt]
    exact roundBits_finite hd hlt

/-- A finite encoding's exponent field is below 2047 (42_estimator.md R180). -/
theorem isNaN_of_finiteNonneg {bits : DWord} (h : finiteNonneg bits = true) :
    isNaN bits = false := by
  rw [finiteNonneg, decide_eq_true_iff] at h
  have hexp : bits.extractLsb' 52 11 ≠ 2047 := by
    intro heq
    have hnat := congrArg BitVec.toNat heq
    rw [BitVec.extractLsb'_toNat, Nat.shiftRight_eq_div_pow] at hnat
    have hval : (2047 : BitVec 11).toNat = 2047 := rfl
    omega
  rw [isNaN, decide_eq_false hexp, Bool.false_and]

/-- With every register 0 the raw estimate is alpha * m, in the small range, and every register
counts as empty (42_estimator.md R178). -/
theorem estimateBits_of_zero_registers (hzero : ∀ i, i < c.regCount → s.getReg c.width i = 0) :
    estimateBits c.exponent (s.rawEstimate c) (s.emptyRegs c) = 0 := by
  have hpos : 0 < c.regCount := Nat.two_pow_pos _
  have hm : (0 : ℚ) < c.regCount := Nat.cast_pos.mpr hpos
  have hsum : sumQ s c = c.regCount := by
    have hterm : ∀ i ∈ Finset.range c.regCount, (1 / 2 : ℚ) ^ (s.getReg c.width i).toNat = 1 :=
      fun i hi => by rw [hzero i (Finset.mem_range.mp hi)]; exact pow_zero _
    rw [sumQ, Finset.sum_congr rfl hterm]
    simp
  have hempty : s.emptyRegs c = c.regCount := by
    rw [State.emptyRegs, emptyCount_eq, Finset.filter_true_of_mem, Finset.card_range]
    exact fun i hi => hzero i (Finset.mem_range.mp hi)
  have hraw : rawQ s c ≤ 5 / 2 * (c.regCount : ℚ) := by
    rw [rawQ, hsum, sq, ← mul_assoc, mul_div_cancel_right₀ _ hm.ne']
    exact mul_le_mul_of_nonneg_right ((alphaQ_le_one _).trans (by norm_num)) hm.le
  rw [State.estimateBits_eq, if_pos hraw, hempty, if_pos hpos, lincount_self]

/-- COUNT answers a faulted block with its fault, the NaN sentinel in UNINIT, the estimate in ACTIVE
and a fault in FREED (42_estimator.md R184; 30_encoding.md R81). -/
theorem exec_count_cases (hx : exec .count s = .next t) :
    (s.fault = true ∧ t = s.respondFaulted) ∨
    (s.fault = false ∧ s.life = .uninit ∧ t = s.respond .ok nanSentinel 0) ∨
    (∃ c, Ready s c ∧
      t = s.respond .ok (estimateBits c.exponent (s.rawEstimate c) (s.emptyRegs c)) 0) ∨
    (s.fault = false ∧ s.life = .freed ∧ t = s.raiseFault .useAfterFree) := by
  rcases unlessFaulted_cases hx with h | ⟨hf, hx⟩
  · exact .inl h
  · rcases lifecycleGate_cases hx with ⟨hl, hx⟩ | ⟨hl, hx⟩ | ⟨hl, rfl⟩
    · cases hx
      exact .inr (.inl ⟨hf, hl, rfl⟩)
    · obtain ⟨c, hc, hx⟩ := withConfig_cases hx
      cases hx
      exact .inr (.inr (.inl ⟨c, ⟨hf, hl, hc⟩, rfl⟩))
    · exact .inr (.inr (.inr ⟨hf, hl, rfl⟩))

/-- The code of a cause is no NaN (60_exceptions.md R243; 42_estimator.md R180). -/
theorem isNaN_faultCause (cause : FaultCause) : isNaN (cause.code.setWidth 64) = false := by
  cases cause <;> decide

end Sys2Proof.Machine
end

section
/-! The obligations of COUNT. -/

namespace Sys2Proof.Proofs

open Sys2Proof.Machine Sys2Proof.Safety

/-- Settles O26: 5 divides the right side but not the left. -/
theorem countBranchNeverTies : Obligations.CountBranchNeverTies := rawQ_ne_small_range_bound

/-- Settles O27: the linear branch at Z = m. -/
theorem countOfFreshImageIsZero : Obligations.CountOfFreshImageIsZero := by
  intro s c hready hzero
  rw [exec_count_of_ready hready, estimateBits_of_zero_registers hzero]
  rfl

/-- Settles O28: the estimate is finite, and a fault's response is the code of its cause. -/
theorem countNeverNaN : Obligations.CountNeverNaN := by
  have hfinite {s : State} {c : ActiveConfig} (hready : Ready s c) :
      finiteNonneg (estimateBits c.exponent (s.rawEstimate c) (s.emptyRegs c)) = true :=
    estimateBits_finite (exponent_lt_of_ready hready)
  constructor
  · intro s c hready
    exact ⟨_, exec_count_of_ready hready, hfinite hready, isNaN_of_finiteNonneg (hfinite hready)⟩
  · intro s t hx hnan
    rcases exec_count_cases hx with ⟨-, rfl⟩ | ⟨-, hl, -⟩ | ⟨c, hready, rfl⟩ | ⟨-, -, rfl⟩
    · exact absurd ((isNaN_faultCause _).symm.trans hnan) Bool.false_ne_true
    · exact hl
    · exact absurd ((isNaN_of_finiteNonneg (hfinite hready)).symm.trans hnan) Bool.false_ne_true
    · exact absurd ((isNaN_faultCause .useAfterFree).symm.trans hnan) Bool.false_ne_true

/-- Settles O29: COUNT reads nothing it writes but FAULT, and a fault answers as the one that set it
did. -/
theorem countTwiceSameAnswer : Obligations.CountTwiceSameAnswer := by
  intro s t hx
  rcases exec_count_cases hx with ⟨hf, rfl⟩ | ⟨hf, hl, rfl⟩ | ⟨c, hready, rfl⟩ | ⟨hf, hl, rfl⟩
  · exact ⟨exec_of_faulted (s := s.respondFaulted) hf _, rfl, fun _ => ⟨rfl, rfl⟩⟩
  · exact ⟨gate_of_uninit (s := s.respond .ok nanSentinel 0) hf hl, rfl, fun _ => ⟨rfl, rfl⟩⟩
  · exact ⟨exec_count_of_ready (s := s.respond .ok _ 0) hready, rfl, fun _ => ⟨rfl, rfl⟩⟩
  · refine ⟨exec_of_faulted (s := s.raiseFault .useAfterFree) rfl _, rfl, ?_⟩
    rintro (hf' | hne)
    · exact absurd (hf.symm.trans hf') Bool.false_ne_true
    · exact absurd hl hne

end Sys2Proof.Proofs
end
